-- ==== Sys2Proof/Word.lean ====
section
/-! DEFINITION. The word types of the core (spec/00_scope.md R12: every value is an unsigned
number of a stated width). -/

namespace Sys2Proof

/-- A memory byte or a general register (R20, R60). -/
abbrev Byte := BitVec 8

/-- An opcode, PC, I or a stack entry (R24, R26, R29, R80). -/
abbrev Word := BitVec 16

/-- A register number `x` or `y`, or a key code: four bits (R81, R245). -/
abbrev Nibble := BitVec 4

/-- The 12-bit address field `nnn` (R81). -/
abbrev Address := BitVec 12

end Sys2Proof
end

