-- ==== Sys2Proof/Syntax.lean ====
section
/-! DEFINITION. The instructions: one constructor per row of spec/opcode_table.json
(spec/30_encoding.md R87), in the table's order. -/

namespace Sys2Proof

/-- The 35 instructions. `x` and `y` are register numbers, `nnn` an address field, `kk` a byte,
`n` a row count (R81, R82). -/
inductive Instr where
  /-- 0000 HALT -/
  | halt
  /-- 00E0 CLS -/
  | cls
  /-- 00EE RET -/
  | ret
  /-- 1nnn JP nnn -/
  | jp (nnn : Address)
  /-- 2nnn CALL nnn -/
  | call (nnn : Address)
  /-- 3xkk SE Vx, kk -/
  | seImm (x : Nibble) (kk : Byte)
  /-- 4xkk SNE Vx, kk -/
  | sneImm (x : Nibble) (kk : Byte)
  /-- 5xy0 SE Vx, Vy -/
  | seReg (x y : Nibble)
  /-- 6xkk LD Vx, kk -/
  | ldImm (x : Nibble) (kk : Byte)
  /-- 7xkk ADD Vx, kk -/
  | addImm (x : Nibble) (kk : Byte)
  /-- 8xy0 LD Vx, Vy -/
  | ldReg (x y : Nibble)
  /-- 8xy1 OR Vx, Vy -/
  | orReg (x y : Nibble)
  /-- 8xy2 AND Vx, Vy -/
  | andReg (x y : Nibble)
  /-- 8xy3 XOR Vx, Vy -/
  | xorReg (x y : Nibble)
  /-- 8xy4 ADD Vx, Vy -/
  | addReg (x y : Nibble)
  /-- 8xy5 SUB Vx, Vy -/
  | subReg (x y : Nibble)
  /-- 8xy6 SHR Vx, Vy -/
  | shr (x y : Nibble)
  /-- 8xy7 SUBN Vx, Vy -/
  | subn (x y : Nibble)
  /-- 8xyE SHL Vx, Vy -/
  | shl (x y : Nibble)
  /-- 9xy0 SNE Vx, Vy -/
  | sneReg (x y : Nibble)
  /-- Annn LD I, nnn -/
  | ldI (nnn : Address)
  /-- Bnnn JP V0, nnn -/
  | jpV0 (nnn : Address)
  /-- Cxkk RND Vx, kk -/
  | rnd (x : Nibble) (kk : Byte)
  /-- Dxyn DRW Vx, Vy, n -/
  | drw (x y : Nibble) (n : Nat)
  /-- Ex9E SKP Vx -/
  | skp (x : Nibble)
  /-- ExA1 SKNP Vx -/
  | sknp (x : Nibble)
  /-- Fx07 LD Vx, DT -/
  | ldVxDt (x : Nibble)
  /-- Fx0A LD Vx, K -/
  | ldVxK (x : Nibble)
  /-- Fx15 LD DT, Vx -/
  | ldDtVx (x : Nibble)
  /-- Fx18 LD ST, Vx -/
  | ldStVx (x : Nibble)
  /-- Fx1E ADD I, Vx -/
  | addIVx (x : Nibble)
  /-- Fx29 LD F, Vx -/
  | ldFVx (x : Nibble)
  /-- Fx33 LD B, Vx -/
  | ldBVx (x : Nibble)
  /-- Fx55 LD [I], Vx -/
  | ldMemVx (x : Nibble)
  /-- Fx65 LD Vx, [I] -/
  | ldVxMem (x : Nibble)
  deriving DecidableEq, Repr

end Sys2Proof
end

