-- ==== Sys2Proof/Decode.lean ====
section
/-! DEFINITION. The opcode fields, the decoder, the encoder and the opcode map of
spec/30_encoding.md. -/

namespace Sys2Proof

/-! ## Fields (R81) -/

/-- `o`: op[15:12], the dispatch nibble. -/
def fieldO (op : Word) : Nibble := op.extractLsb' 12 4

/-- `x`: op[11:8]. -/
def fieldX (op : Word) : Nibble := op.extractLsb' 8 4

/-- `y`: op[7:4]. -/
def fieldY (op : Word) : Nibble := op.extractLsb' 4 4

/-- `n`: op[3:0]. -/
def fieldN (op : Word) : Nibble := op.extractLsb' 0 4

/-- `kk`: op[7:0]. -/
def fieldKk (op : Word) : Byte := op.extractLsb' 0 8

/-- `nnn`: op[11:0]. -/
def fieldNnn (op : Word) : Address := op.extractLsb' 0 12

/-- The fetch's join of two bytes, the one at the lower address on top: big-endian (R64, R65). -/
def joinBytes (hi lo : Byte) : Word := hi ++ lo

/-- The byte of an opcode at the lower address (R64). -/
def highByte (op : Word) : Byte := op.extractLsb' 8 8

/-- The byte of an opcode at the higher address (R64). -/
def lowByte (op : Word) : Byte := op.extractLsb' 0 8

/-! ## Decoding (R84, R85) -/

/-- Why bytes are no instruction. -/
inductive DecodeError where
  /-- No row of the opcode map matches the word (R85, R88). -/
  | unknownOpcode (op : Word)
  /-- Fewer than the two bytes of an opcode are there (R80). -/
  | truncated
  deriving DecidableEq, Repr

/-- Group 0: selected by op[11:0] (R84, R86). -/
def decodeGroup0 (op : Word) : Except DecodeError Instr :=
  if fieldNnn op = 0x000 then .ok .halt
  else if fieldNnn op = 0x0E0 then .ok .cls
  else if fieldNnn op = 0x0EE then .ok .ret
  else .error (.unknownOpcode op)

/-- Groups 5 and 9: legal only with n = 0 (R84). -/
def decodeIfN0 (op : Word) (i : Instr) : Except DecodeError Instr :=
  if fieldN op = 0 then .ok i else .error (.unknownOpcode op)

/-- Group 8: selected by n (R84). -/
def decodeGroup8 (op : Word) : Except DecodeError Instr :=
  let x := fieldX op
  let y := fieldY op
  match (fieldN op).toNat with
  | 0x0 => .ok (.ldReg x y)
  | 0x1 => .ok (.orReg x y)
  | 0x2 => .ok (.andReg x y)
  | 0x3 => .ok (.xorReg x y)
  | 0x4 => .ok (.addReg x y)
  | 0x5 => .ok (.subReg x y)
  | 0x6 => .ok (.shr x y)
  | 0x7 => .ok (.subn x y)
  | 0xE => .ok (.shl x y)
  | _ => .error (.unknownOpcode op)

/-- Group E: selected by kk (R84). -/
def decodeGroupE (op : Word) : Except DecodeError Instr :=
  if fieldKk op = 0x9E then .ok (.skp (fieldX op))
  else if fieldKk op = 0xA1 then .ok (.sknp (fieldX op))
  else .error (.unknownOpcode op)

/-- Group F: selected by kk (R84). -/
def decodeGroupF (op : Word) : Except DecodeError Instr :=
  let x := fieldX op
  if fieldKk op = 0x07 then .ok (.ldVxDt x)
  else if fieldKk op = 0x0A then .ok (.ldVxK x)
  else if fieldKk op = 0x15 then .ok (.ldDtVx x)
  else if fieldKk op = 0x18 then .ok (.ldStVx x)
  else if fieldKk op = 0x1E then .ok (.addIVx x)
  else if fieldKk op = 0x29 then .ok (.ldFVx x)
  else if fieldKk op = 0x33 then .ok (.ldBVx x)
  else if fieldKk op = 0x55 then .ok (.ldMemVx x)
  else if fieldKk op = 0x65 then .ok (.ldVxMem x)
  else .error (.unknownOpcode op)

/-- The decode of one opcode: dispatch on the high nibble, then on the group's own bits (R84); a
word outside the map is an unknown opcode (R85). -/
def decode (op : Word) : Except DecodeError Instr :=
  match (fieldO op).toNat with
  | 0x0 => decodeGroup0 op
  | 0x1 => .ok (.jp (fieldNnn op))
  | 0x2 => .ok (.call (fieldNnn op))
  | 0x3 => .ok (.seImm (fieldX op) (fieldKk op))
  | 0x4 => .ok (.sneImm (fieldX op) (fieldKk op))
  | 0x5 => decodeIfN0 op (.seReg (fieldX op) (fieldY op))
  | 0x6 => .ok (.ldImm (fieldX op) (fieldKk op))
  | 0x7 => .ok (.addImm (fieldX op) (fieldKk op))
  | 0x8 => decodeGroup8 op
  | 0x9 => decodeIfN0 op (.sneReg (fieldX op) (fieldY op))
  | 0xA => .ok (.ldI (fieldNnn op))
  | 0xB => .ok (.jpV0 (fieldNnn op))
  | 0xC => .ok (.rnd (fieldX op) (fieldKk op))
  | 0xD => .ok (.drw (fieldX op) (fieldY op) (fieldN op).toNat)
  | 0xE => decodeGroupE op
  | 0xF => decodeGroupF op
  | _ => .error (.unknownOpcode op)

/-- The decoder on a byte stream: two bytes an instruction, always (R80, R90). -/
def decodeBytes : List Byte → Except DecodeError (Instr × List Byte)
  | hi :: lo :: rest =>
    match decode (joinBytes hi lo) with
    | .ok i => .ok (i, rest)
    | .error e => .error e
  | _ => .error .truncated

/-- The low `nbits` bits of `w` as the opcode they stand for, the bits above being zero. -/
def tableWord (nbits w : Nat) : Word := BitVec.ofNat 16 (w % 2 ^ nbits)

/-- The instruction the decoder reads from an opcode-table word laid out in memory order. -/
def decodeTableWord (nbits w : Nat) : Option Instr :=
  let op := tableWord nbits w
  match decodeBytes [highByte op, lowByte op] with
  | .ok (i, _) => some i
  | .error _ => none

/-! ## Encoding (R83, R87) -/

/-- A word of the form `o nnn`. -/
def wordNnn (o : Nibble) (nnn : Address) : Word := o ++ nnn

/-- A word of the form `o x kk`. -/
def wordXkk (o x : Nibble) (kk : Byte) : Word := o ++ x ++ kk

/-- A word of the form `o x y n`. -/
def wordXyn (o x y n : Nibble) : Word := o ++ x ++ y ++ n

/-- The opcode of an instruction, from the pattern column of R87's table. A row count that does
not fit four bits is cut to them: such a term is not well formed. -/
def encode : Instr → Word
  | .halt => 0x0000
  | .cls => 0x00E0
  | .ret => 0x00EE
  | .jp nnn => wordNnn 0x1 nnn
  | .call nnn => wordNnn 0x2 nnn
  | .seImm x kk => wordXkk 0x3 x kk
  | .sneImm x kk => wordXkk 0x4 x kk
  | .seReg x y => wordXyn 0x5 x y 0x0
  | .ldImm x kk => wordXkk 0x6 x kk
  | .addImm x kk => wordXkk 0x7 x kk
  | .ldReg x y => wordXyn 0x8 x y 0x0
  | .orReg x y => wordXyn 0x8 x y 0x1
  | .andReg x y => wordXyn 0x8 x y 0x2
  | .xorReg x y => wordXyn 0x8 x y 0x3
  | .addReg x y => wordXyn 0x8 x y 0x4
  | .subReg x y => wordXyn 0x8 x y 0x5
  | .shr x y => wordXyn 0x8 x y 0x6
  | .subn x y => wordXyn 0x8 x y 0x7
  | .shl x y => wordXyn 0x8 x y 0xE
  | .sneReg x y => wordXyn 0x9 x y 0x0
  | .ldI nnn => wordNnn 0xA nnn
  | .jpV0 nnn => wordNnn 0xB nnn
  | .rnd x kk => wordXkk 0xC x kk
  | .drw x y n => wordXyn 0xD x y (BitVec.ofNat 4 n)
  | .skp x => wordXkk 0xE x 0x9E
  | .sknp x => wordXkk 0xE x 0xA1
  | .ldVxDt x => wordXkk 0xF x 0x07
  | .ldVxK x => wordXkk 0xF x 0x0A
  | .ldDtVx x => wordXkk 0xF x 0x15
  | .ldStVx x => wordXkk 0xF x 0x18
  | .addIVx x => wordXkk 0xF x 0x1E
  | .ldFVx x => wordXkk 0xF x 0x29
  | .ldBVx x => wordXkk 0xF x 0x33
  | .ldMemVx x => wordXkk 0xF x 0x55
  | .ldVxMem x => wordXkk 0xF x 0x65

/-- The two bytes of an instruction in memory order (R64). -/
def encodeBytes (i : Instr) : List Byte := [highByte (encode i), lowByte (encode i)]

/-! ## The opcode map as rows (R87) -/

/-- One row of R87's table: an opcode belongs to it when `op &&& mask = fixed`. -/
structure OpcodeRow where
  /-- The row's name in spec/opcode_table.json. -/
  mnemonic : String
  /-- The table's `match`. -/
  fixed : Word
  /-- The table's `mask`: a 1 for every fixed bit. -/
  mask : Word
  deriving DecidableEq, Repr

/-- R87: an opcode matches a row when its fixed bits are the row's. -/
abbrev OpcodeRow.Matches (r : OpcodeRow) (op : Word) : Prop := op &&& r.mask = r.fixed

/-- The row of R87's table an instruction belongs to. -/
def opcodeRow : Instr → OpcodeRow
  | .halt => ⟨"HALT", 0x0000, 0xFFFF⟩
  | .cls => ⟨"CLS", 0x00E0, 0xFFFF⟩
  | .ret => ⟨"RET", 0x00EE, 0xFFFF⟩
  | .jp _ => ⟨"JP_nnn", 0x1000, 0xF000⟩
  | .call _ => ⟨"CALL_nnn", 0x2000, 0xF000⟩
  | .seImm _ _ => ⟨"SE_Vx__kk", 0x3000, 0xF000⟩
  | .sneImm _ _ => ⟨"SNE_Vx__kk", 0x4000, 0xF000⟩
  | .seReg _ _ => ⟨"SE_Vx__Vy", 0x5000, 0xF00F⟩
  | .ldImm _ _ => ⟨"LD_Vx__kk", 0x6000, 0xF000⟩
  | .addImm _ _ => ⟨"ADD_Vx__kk", 0x7000, 0xF000⟩
  | .ldReg _ _ => ⟨"LD_Vx__Vy", 0x8000, 0xF00F⟩
  | .orReg _ _ => ⟨"OR_Vx__Vy", 0x8001, 0xF00F⟩
  | .andReg _ _ => ⟨"AND_Vx__Vy", 0x8002, 0xF00F⟩
  | .xorReg _ _ => ⟨"XOR_Vx__Vy", 0x8003, 0xF00F⟩
  | .addReg _ _ => ⟨"ADD_Vx__Vy", 0x8004, 0xF00F⟩
  | .subReg _ _ => ⟨"SUB_Vx__Vy", 0x8005, 0xF00F⟩
  | .shr _ _ => ⟨"SHR_Vx__Vy", 0x8006, 0xF00F⟩
  | .subn _ _ => ⟨"SUBN_Vx__Vy", 0x8007, 0xF00F⟩
  | .shl _ _ => ⟨"SHL_Vx__Vy", 0x800E, 0xF00F⟩
  | .sneReg _ _ => ⟨"SNE_Vx__Vy", 0x9000, 0xF00F⟩
  | .ldI _ => ⟨"LD_I__nnn", 0xA000, 0xF000⟩
  | .jpV0 _ => ⟨"JP_V0__nnn", 0xB000, 0xF000⟩
  | .rnd _ _ => ⟨"RND_Vx__kk", 0xC000, 0xF000⟩
  | .drw _ _ _ => ⟨"DRW_Vx__Vy__n", 0xD000, 0xF000⟩
  | .skp _ => ⟨"SKP_Vx", 0xE09E, 0xF0FF⟩
  | .sknp _ => ⟨"SKNP_Vx", 0xE0A1, 0xF0FF⟩
  | .ldVxDt _ => ⟨"LD_Vx__DT", 0xF007, 0xF0FF⟩
  | .ldVxK _ => ⟨"LD_Vx__K", 0xF00A, 0xF0FF⟩
  | .ldDtVx _ => ⟨"LD_DT__Vx", 0xF015, 0xF0FF⟩
  | .ldStVx _ => ⟨"LD_ST__Vx", 0xF018, 0xF0FF⟩
  | .addIVx _ => ⟨"ADD_I__Vx", 0xF01E, 0xF0FF⟩
  | .ldFVx _ => ⟨"LD_F__Vx", 0xF029, 0xF0FF⟩
  | .ldBVx _ => ⟨"LD_B__Vx", 0xF033, 0xF0FF⟩
  | .ldMemVx _ => ⟨"LD__I___Vx", 0xF055, 0xF0FF⟩
  | .ldVxMem _ => ⟨"LD_Vx___I", 0xF065, 0xF0FF⟩

/-- One instruction of every row, in the table's order, operands all zero. -/
def sampleInstrs : List Instr :=
  [.halt, .cls, .ret, .jp 0, .call 0, .seImm 0 0, .sneImm 0 0, .seReg 0 0,
   .ldImm 0 0, .addImm 0 0, .ldReg 0 0, .orReg 0 0, .andReg 0 0, .xorReg 0 0, .addReg 0 0,
   .subReg 0 0, .shr 0 0, .subn 0 0, .shl 0 0, .sneReg 0 0, .ldI 0, .jpV0 0, .rnd 0 0,
   .drw 0 0 0, .skp 0, .sknp 0, .ldVxDt 0, .ldVxK 0, .ldDtVx 0, .ldStVx 0, .addIVx 0,
   .ldFVx 0, .ldBVx 0, .ldMemVx 0, .ldVxMem 0]

/-- The opcode map: the 35 rows of R87. -/
def opcodeMap : List OpcodeRow := sampleInstrs.map opcodeRow

end Sys2Proof
end

