-- ==== Sys2Proof/Config.lean ====
section
/-! DEFINITION. What is fixed for a run (spec/00_scope.md R6 to R9) and what the host chooses
freely each tick (spec/60_exceptions.md R245). The `opaque` constants have no body: nothing can
be proved about their values (log entries 1 and 2). -/

namespace Sys2Proof

/-- SHIFT_SOURCE: which register 8xy6 and 8xyE shift (R6, R129). -/
inductive ShiftSource where
  | vy
  | vx
  deriving DecidableEq, Repr

/-- The three parameters a transition of the core reads. A run never changes them (R6, R260). -/
structure Config where
  /-- SHIFT_SOURCE (R6). -/
  shiftSource : ShiftSource
  /-- FONT: glyph d at bytes 5d to 5d + 4 (R7, R66). -/
  font : Vector Byte 80
  /-- UNITS_PER_PERIOD: time units in one timer period of 1/60 s (R8). -/
  unitsPerPeriod : Nat
  deriving DecidableEq, Repr

/-- R8: UNITS_PER_PERIOD is positive. -/
abbrev Config.wf (c : Config) : Prop := 0 < c.unitsPerPeriod

/-- The input record of one tick (R245): every field is a host choice. -/
structure TickInput where
  /-- The key vector after the events since the last poll. -/
  keys : Vector Bool 16
  /-- The key-down transitions since the last poll, in arrival order. -/
  downs : List Nibble
  /-- The elapsed time of R231, in time units. -/
  elapsed : Nat
  /-- The quit signal as seen by this tick's end check. -/
  quit : Bool
  /-- The byte a Cxkk executed in this tick receives (R10). -/
  rand : Byte
  deriving DecidableEq, Repr, Inhabited

/-- FREE VALUE (log entry 1): the host's input in the tick of a given number, where the state does
not hold it already. -/
opaque Config.hostInput : Nat → TickInput

/-- FREE VALUE (log entry 2): one less than the OPEN parameter UNITS_PER_PERIOD of R8. -/
opaque Config.openPeriodPred : Nat

/-- FREE VALUE (log entry 2): the OPEN parameter TARGET_RATE_HZ of R9. No rule of the core's
transition reads it (R9, R248), and no definition of this model does. -/
opaque Config.targetRateHz : Nat

/-- The default FONT of spec/93_implementation_defined.md IMPL-FONT, one line a glyph.
PRESUMED (log entry 4): the spec marks these bytes as general knowledge. -/
def Config.conventionalFont : Vector Byte 80 :=
  #v[0xF0, 0x90, 0x90, 0x90, 0xF0,
     0x20, 0x60, 0x20, 0x20, 0x70,
     0xF0, 0x10, 0xF0, 0x80, 0xF0,
     0xF0, 0x10, 0xF0, 0x10, 0xF0,
     0x90, 0x90, 0xF0, 0x10, 0x10,
     0xF0, 0x80, 0xF0, 0x10, 0xF0,
     0xF0, 0x80, 0xF0, 0x90, 0xF0,
     0xF0, 0x10, 0x20, 0x40, 0x40,
     0xF0, 0x90, 0xF0, 0x90, 0xF0,
     0xF0, 0x90, 0xF0, 0x10, 0xF0,
     0xF0, 0x90, 0xF0, 0x90, 0x90,
     0xE0, 0x90, 0xE0, 0x90, 0xE0,
     0xF0, 0x80, 0x80, 0x80, 0xF0,
     0xE0, 0x90, 0x90, 0x90, 0xE0,
     0xF0, 0x80, 0xF0, 0x80, 0xF0,
     0xF0, 0x80, 0xF0, 0x80, 0x80]

/-- The defaults the spec names (R6, R7), with the OPEN period of R8 left free. -/
def Config.standard : Config where
  shiftSource := .vy
  font := Config.conventionalFont
  unitsPerPeriod := Config.openPeriodPred + 1

end Sys2Proof
end

