-- ==== Sys2Proof/Machine/State.lean ====
section
/-! DEFINITION. The state of the core (spec/10_state.md), as plain data, its faults
(spec/60_exceptions.md R211), and its value after reset (R44). -/

namespace Sys2Proof.Machine

/-- The fault kinds of R211 with the information each records (R42, R213). A fault stops the run
for good (R210); it carries no state, because the state after a fault is unspecified (R214, log
entry 5: safe). -/
inductive Fault where
  /-- Raised by the fetch, Dxyn, Fx33, Fx55 and Fx65 at the first byte outside memory (R63, R73):
  the offending address and the bound 4096. The spec's own fault: safe. -/
  | addressOutOfRange (address bound : Nat)
  /-- Raised by 2nnn with SP = 16 (R30, R104). The spec's own fault: safe. -/
  | stackOverflow
  /-- Raised by 00EE with SP = 0 (R30, R102). The spec's own fault: safe. -/
  | stackUnderflow
  /-- Raised by Ex9E and ExA1 with V[x] above 0x0F (R39): the key code. The spec's own fault: safe. -/
  | invalidKeyCode (code : Byte)
  /-- Raised by the decode of any word outside the map (R85, R88): the word. The spec's own fault:
  safe. -/
  | unknownOpcode (op : Word)
  /-- Raised by the load procedure for an empty ROM (R262), never by a step. Safe. -/
  | emptyRom
  /-- Raised by the load procedure for a ROM above 3584 bytes (R262), never by a step: its length.
  Safe. -/
  | romTooLarge (length : Nat)
  deriving DecidableEq, Repr

/-- Why there is no meaning. -/
inductive Refusal where
  /-- An instruction whose meaning is not written. Raised by no arm of this model. Safe. -/
  | notModelled (mnemonic : String)
  /-- Raised by a step from Halted or Faulted: a tick from there does not exist (R246). Safe: log
  entry 6. -/
  | noTick
  deriving DecidableEq, Repr

/-- The run state (R41). -/
inductive RunState where
  | running
  /-- Waiting for a key-down; `x` receives its code (R192, R242). -/
  | awaitingKey (x : Nibble)
  /-- Terminal (R246). -/
  | halted
  /-- Terminal, with the fault record of R42 (R212). -/
  | faulted (f : Fault)
  deriving DecidableEq, Repr

/-- Memory: the bytes that differ from what memory holds at reset without a ROM, by rising
address (R60; the canonical form is `Memory.wf`). -/
abbrev Memory := List Host.Cell

/-- The framebuffer, column by column: 64 columns of 32 rows (R36). -/
abbrev Framebuffer := Vector (Vector Bool 32) 64

/-- The all-false framebuffer (R44, R170). -/
def Framebuffer.blank : Framebuffer := Vector.replicate 64 (Vector.replicate 32 false)

/-- The core's state. The first part is the record of spec/10_state.md; then the output ports of
R253 (log entry 7); then the model's own fields (log entries 1, 3 and 8). -/
structure State where
  /-- SHIFT_SOURCE, FONT and UNITS_PER_PERIOD: fixed for a run (R6, R7, R8). -/
  cfg : Config
  /-- Mem (R60). -/
  mem : Memory
  /-- V0..VF (R20). -/
  v : Vector Byte 16
  /-- I (R24). -/
  i : Word
  /-- PC (R26). -/
  pc : Word
  /-- The call stack's entries (R29). -/
  stack : Vector Word 16
  /-- SP, the stack's depth 0..16 (R29). -/
  sp : Fin 17
  /-- The delay timer (R32). -/
  dt : Byte
  /-- The sound timer (R32). -/
  st : Byte
  /-- The delay timer's accumulator, in time units (R33). -/
  accDT : Nat
  /-- The sound timer's accumulator, in time units (R33). -/
  accST : Nat
  /-- Fb (R36). -/
  fb : Framebuffer
  /-- The key-down flags (R38). -/
  key : Vector Bool 16
  /-- The quit flag (R40). -/
  quit : Bool
  /-- The run state (R41). -/
  run : RunState
  /-- Port fb_out: the framebuffer the last tick output (R247, R253). -/
  fbOut : Framebuffer
  /-- Port beep: whether the last tick's timer phase beeped (R233, R253). -/
  beep : Bool
  /-- The rand port's byte in this tick, which `Random()` is (R10, R243). -/
  rand : Byte
  /-- The tick inputs the host has fixed, oldest first (R245). -/
  inputs : List TickInput
  /-- The number of ticks taken: the index of a free input (R245). -/
  tick : Nat
  deriving DecidableEq, Repr

/-- "all else zeroed" (R260 step 2) with PC and run as R260 step 5 sets them: the state of R44
for a configuration before any ROM is copied in. -/
def State.zeroed (cfg : Config) : State where
  cfg := cfg
  mem := []
  v := Vector.replicate 16 0
  i := 0
  pc := 0x200
  stack := Vector.replicate 16 0
  sp := 0
  dt := 0
  st := 0
  accDT := 0
  accST := 0
  fb := Framebuffer.blank
  key := Vector.replicate 16 false
  quit := false
  run := .running
  fbOut := Framebuffer.blank
  beep := false
  rand := 0
  inputs := []
  tick := 0

/-- The machine right after reset, with the spec's default configuration and no ROM (R44; how a
program comes in: log entry 9). -/
def State.reset : State := State.zeroed Config.standard

end Sys2Proof.Machine
end

