-- ==== Sys2Proof/Machine/Ops.lean ====
section
/-! DEFINITION. The named operations over registers, memory, the call stack and the framebuffer,
raising a fault, and loading a ROM. -/

namespace Sys2Proof.Machine

/-! ## Faults -/

/-- `raise F(info)`: the one way an instruction faults (R15). No later statement runs, and the
state is dropped: what it holds after a fault is unspecified (R214). The core has no trap entry
and no return from one (R217, R218). -/
def raise {α : Type} (f : Fault) : Except Fault α := .error f

/-- The outcome of an instruction whose pseudocode ended or raised. -/
def finish : Except Fault State → Host.Outcome State Fault Refusal
  | .ok s => .next s
  | .error f => .fault f

/-- `then` of a tick's phases: what follows runs only if the instruction did not stop (R212). -/
def afterNext (o : Host.Outcome State Fault Refusal) (f : State → State) :
    Host.Outcome State Fault Refusal :=
  match o with
  | .next s => .next (f s)
  | .fault r => .fault r
  | .refused r => .refused r

/-- The numeric codes of R211's table. -/
def faultCode : Fault → Nat
  | .addressOutOfRange _ _ => 1
  | .stackOverflow => 2
  | .stackUnderflow => 3
  | .invalidKeyCode _ => 4
  | .unknownOpcode _ => 5
  | .emptyRom => 6
  | .romTooLarge _ => 7

/-! ## General registers, I, PC, timers -/

/-- `V[x]` (R13). -/
def State.reg (s : State) (x : Nibble) : Byte := s.v[x.toNat]'x.isLt

/-- `V[x] <- b` (R13). -/
def State.setReg (s : State) (x : Nibble) (b : Byte) : State :=
  { s with v := s.v.set x.toNat b x.isLt }

/-- VF is V15 (R13, R21). -/
def vf : Nibble := 0xF

/-- `I <- w`. -/
def State.setI (s : State) (w : Word) : State := { s with i := w }

/-- `PC <- w`. -/
def State.setPc (s : State) (w : Word) : State := { s with pc := w }

/-- `DT <- b` (R194). -/
def State.setDt (s : State) (b : Byte) : State := { s with dt := b }

/-- `ST <- b` (R195). -/
def State.setSt (s : State) (b : Byte) : State := { s with st := b }

/-- `run <- r`. -/
def State.setRun (s : State) (r : RunState) : State := { s with run := r }

/-- PC one instruction on, mod 2^16 (R26, R28). -/
def State.advancePc (s : State) : State := s.setPc (s.pc + 2)

/-! ## Memory -/

/-- MEM_SIZE, the bound of R63. -/
def memSize : Nat := 4096

/-- What an address not listed in `mem` reads as: memory's contents at reset without a ROM, that is
FONT at 0x000..0x04F and zero elsewhere (R44, R66). -/
def resetByte (c : Config) (a : Nat) : Byte := if h : a < 80 then c.font[a] else 0

/-- The byte at `a`, unchecked. -/
def Memory.read (c : Config) : Memory → Nat → Byte
  | [], a => resetByte c a
  | (k, b) :: m, a => if a = k then b else Memory.read c m a

/-- Put a cell in front unless it holds what an unlisted address reads as. -/
def Memory.cons (c : Config) (a : Nat) (b : Byte) (m : Memory) : Memory :=
  if b = resetByte c a then m else (a, b) :: m

/-- Write one byte, keeping the canonical form. -/
def Memory.write (c : Config) : Memory → Nat → Byte → Memory
  | [], a, b => Memory.cons c a b []
  | (k, d) :: m, a, b =>
    if a < k then Memory.cons c a b ((k, d) :: m)
    else if a = k then Memory.cons c a b m
    else (k, d) :: Memory.write c m a b

/-- Every listed address is at or above `lo`, addresses rise strictly, all lie in memory, and no
cell holds what its address reads as unlisted. -/
def Memory.wfFrom (c : Config) : Nat → Memory → Bool
  | _, [] => true
  | lo, (k, b) :: m =>
    decide (lo ≤ k) && decide (k < memSize) && decide (b ≠ resetByte c k) && Memory.wfFrom c (k + 1) m

/-- The canonical form of memory. -/
def Memory.wf (c : Config) (m : Memory) : Bool := Memory.wfFrom c 0 m

/-- The byte of memory at `a`, as a reader of the state sees it (no check, no fault). -/
def State.byteAt (s : State) (a : Nat) : Byte := Memory.read s.cfg s.mem a

/-- `MemRead(a, 1)`: bounds-checked (R14, R63). -/
def State.readByte (s : State) (a : Nat) : Except Fault Byte :=
  if a < memSize then .ok (s.byteAt a) else raise (.addressOutOfRange a memSize)

/-- `MemWrite(a, 1, b)`: bounds-checked (R14, R63); every byte of memory is writable (R69). -/
def State.writeByte (s : State) (a : Nat) (b : Byte) : Except Fault State :=
  if a < memSize then .ok { s with mem := Memory.write s.cfg s.mem a b }
  else raise (.addressOutOfRange a memSize)

/-- `for i in 0..=x: MemWrite(I + i, 1, V[i])`, from register number `k` on, `n` registers (R154). -/
def storeRegs : Nat → Nat → State → Except Fault State
  | 0, _, s => .ok s
  | n + 1, k, s => do
    let s ← s.writeByte (s.i.toNat + k) (s.reg (BitVec.ofNat 4 k))
    storeRegs n (k + 1) s

/-- `for i in 0..=x: V[i] <- MemRead(I + i, 1)`, from register number `k` on, `n` registers (R155). -/
def loadRegs : Nat → Nat → State → Except Fault State
  | 0, _, s => .ok s
  | n + 1, k, s => do
    let b ← s.readByte (s.i.toNat + k)
    loadRegs n (k + 1) (s.setReg (BitVec.ofNat 4 k) b)

/-! ## Call stack (R30) -/

/-- `Push(w)`. -/
def State.push (s : State) (w : Word) : Except Fault State :=
  if h : s.sp.val < 16 then .ok { s with stack := s.stack.set s.sp.val w, sp := ⟨s.sp.val + 1, by omega⟩ }
  else raise .stackOverflow

/-- `Pop()`: the value and the state without it; the entry keeps its value (R31). -/
def State.pop (s : State) : Except Fault (Word × State) :=
  if h : 0 < s.sp.val then
    .ok (s.stack[s.sp.val - 1], { s with sp := ⟨s.sp.val - 1, by omega⟩ })
  else raise .stackUnderflow

/-! ## Framebuffer -/

/-- `Fb[c][r]` (R14). -/
def Framebuffer.get (fb : Framebuffer) (c : Fin 64) (r : Fin 32) : Bool := fb[c][r]

/-- `Fb[c][r] <- b`. -/
def Framebuffer.put (fb : Framebuffer) (c : Fin 64) (r : Fin 32) (b : Bool) : Framebuffer :=
  fb.set c (fb[c].set r b)

/-- `Fb[c][r]` of a state. -/
def State.pixel (s : State) (c : Fin 64) (r : Fin 32) : Bool := s.fb.get c r

/-- `Clear()` (R170). -/
def State.clearFb (s : State) : State := { s with fb := Framebuffer.blank }

/-- `Toggle(c, r)`: OR the pixel into VF, then flip it (R171). -/
def State.toggle (s : State) (c : Fin 64) (r : Fin 32) : State :=
  let s' := s.setReg vf (s.reg vf ||| (if s.pixel c r then 1 else 0))
  { s' with fb := s'.fb.put c r (!s'.pixel c r) }

/-! ## Reset with a ROM (R260 to R262) -/

/-- ROM_START and the longest ROM (R67). -/
def romStart : Nat := 0x200

/-- The longest ROM (R67). -/
def maxRomLength : Nat := 3584

/-- `for i in 0..len: Mem[a + i] <- rom[i]` (R261). -/
def copyBytes (c : Config) : Memory → Nat → List Byte → Memory
  | m, _, [] => m
  | m, a, b :: rest => copyBytes c (Memory.write c m a b) (a + 1) rest

/-- Reset from a ROM image and a configuration (R260): refuse a bad ROM before any state is built
(R262), else zero everything, put FONT and the ROM in memory, and start at 0x200. -/
def boot (cfg : Config) (rom : List Byte) : Except Fault State :=
  if rom.length = 0 then raise .emptyRom
  else if maxRomLength < rom.length then raise (.romTooLarge rom.length)
  else
    let s := State.zeroed cfg
    .ok { s with mem := copyBytes cfg s.mem romStart rom }

end Sys2Proof.Machine
end

