-- ==== Sys2Proof/Machine/Operands.lean ====
section
/-! DEFINITION. Operand forms: how the fields of an opcode become values, addresses and
conditions (spec/30_encoding.md R82, spec/42_index_memory.md R156). -/

namespace Sys2Proof.Machine

/-- `zext_16(nnn)`: the target of 1nnn and 2nnn, the value of Annn (R82). -/
def addressOf (nnn : Address) : Word := nnn.setWidth 16

/-- `V[0] + nnn`, mod 2^16 and not masked to 12 bits: the target of Bnnn (R109). -/
def indexedAddress (s : State) (nnn : Address) : Word := (s.reg 0).setWidth 16 + addressOf nnn

/-- `I + k`, unbounded: a data address (R72). -/
def dataAddress (s : State) (k : Nat) : Nat := s.i.toNat + k

/-- The shift source register `s` of 8xy6 and 8xyE (R129). -/
def shiftSourceReg (c : Config) (x y : Nibble) : Nibble :=
  match c.shiftSource with
  | .vy => y
  | .vx => x

/-- `ReadKey(code)` (R39). -/
def readKey (s : State) (code : Byte) : Except Fault Bool :=
  if h : code.toNat < 16 then .ok s.key[code.toNat] else raise (.invalidKeyCode code)

/-- `if cond then Skip()` (R100). -/
def skipIf (cond : Bool) (s : State) : State :=
  s.setPc (if cond then s.pc + 2 else s.pc)

/-- The decimal digits of a byte: hundreds, tens, ones (R153). -/
def bcdDigits (b : Byte) : Byte × Byte × Byte :=
  (BitVec.ofNat 8 (b.toNat / 100), BitVec.ofNat 8 (b.toNat / 10 % 10), BitVec.ofNat 8 (b.toNat % 10))

/-- The address of the glyph of a byte, exact in 16 bits and not masked to a nibble (R152). -/
def glyphAddress (b : Byte) : Word := BitVec.ofNat 16 (b.toNat * 5)

/-- The pixel a sprite's row and column land on: both wrap (R173). -/
def spriteColumn (x0 : Byte) (col : Nat) : Fin 64 := Fin.ofNat 64 (x0.toNat + col)

/-- The row a sprite's row lands on (R173). -/
def spriteRow (y0 : Byte) (row : Nat) : Fin 32 := Fin.ofNat 32 (y0.toNat + row)

/-- `(b >> (7 - col)) & 1 = 1`: bit of a sprite byte, most significant first (R173). -/
def spriteBit (b : Byte) (col : Nat) : Bool := b.getLsbD (7 - col)

end Sys2Proof.Machine
end

