-- ==== Sys2Proof/Machine/Flags.lean ====
section
/-! DEFINITION. The flags, which are values of VF (spec/10_state.md R21), and the order in which
a flag and a result are written (spec/41_arithmetic.md R120). The collision flag is written by
`State.toggle`. -/

namespace Sys2Proof.Machine

/-- 8xy4: 1 when the unbounded sum exceeds 255 (R127). -/
def carryFlag (a b : Byte) : Byte := if a.toNat + b.toNat > 255 then 1 else 0

/-- 8xy5 and 8xy7: 1 when the minuend is strictly greater (R128, R131). -/
def noBorrowFlag (minuend subtrahend : Byte) : Byte :=
  if minuend.toNat > subtrahend.toNat then 1 else 0

/-- 8xy6: bit 0, which the shift drops (R130). -/
def shiftRightFlag (a : Byte) : Byte := a &&& 1

/-- 8xyE: bit 7, which the shift drops (R132). -/
def shiftLeftFlag (a : Byte) : Byte := (a >>> 7) &&& 1

/-- `VF <- flag; V[x] <- result`, the result computed from the state with the new VF (R120, R16). -/
def flagThenResult (x : Nibble) (flag result : State → Byte) (s : State) : State :=
  let s' := s.setReg vf (flag s)
  s'.setReg x (result s')

end Sys2Proof.Machine
end

