-- ==== Sys2Proof/Machine/Arithmetic.lean ====
section
/-! DEFINITION. Register loads, arithmetic, logic, shifts and random (spec/41_arithmetic.md). -/

namespace Sys2Proof.Machine

/-- 6xkk (R121). -/
def execLdImm (x : Nibble) (kk : Byte) (s : State) : Host.Outcome State Fault Refusal :=
  .next (s.setReg x kk)

/-- 7xkk: no carry is recorded (R122). -/
def execAddImm (x : Nibble) (kk : Byte) (s : State) : Host.Outcome State Fault Refusal :=
  .next (s.setReg x (s.reg x + kk))

/-- 8xy0 (R123). -/
def execLdReg (x y : Nibble) (s : State) : Host.Outcome State Fault Refusal :=
  .next (s.setReg x (s.reg y))

/-- 8xy1 (R124). -/
def execOrReg (x y : Nibble) (s : State) : Host.Outcome State Fault Refusal :=
  .next (s.setReg x (s.reg x ||| s.reg y))

/-- 8xy2 (R125). -/
def execAndReg (x y : Nibble) (s : State) : Host.Outcome State Fault Refusal :=
  .next (s.setReg x (s.reg x &&& s.reg y))

/-- 8xy3 (R126). -/
def execXorReg (x y : Nibble) (s : State) : Host.Outcome State Fault Refusal :=
  .next (s.setReg x (s.reg x ^^^ s.reg y))

/-- 8xy4 (R127). -/
def execAddReg (x y : Nibble) (s : State) : Host.Outcome State Fault Refusal :=
  .next (flagThenResult x (fun s => carryFlag (s.reg x) (s.reg y)) (fun s => s.reg x + s.reg y) s)

/-- 8xy5 (R128). -/
def execSubReg (x y : Nibble) (s : State) : Host.Outcome State Fault Refusal :=
  .next (flagThenResult x (fun s => noBorrowFlag (s.reg x) (s.reg y)) (fun s => s.reg x - s.reg y) s)

/-- 8xy6 (R129, R130). -/
def execShr (x y : Nibble) (s : State) : Host.Outcome State Fault Refusal :=
  .next (flagThenResult x (fun s => shiftRightFlag (s.reg (shiftSourceReg s.cfg x y)))
    (fun s => s.reg (shiftSourceReg s.cfg x y) >>> 1) s)

/-- 8xy7 (R131). -/
def execSubn (x y : Nibble) (s : State) : Host.Outcome State Fault Refusal :=
  .next (flagThenResult x (fun s => noBorrowFlag (s.reg y) (s.reg x)) (fun s => s.reg y - s.reg x) s)

/-- 8xyE (R129, R132). -/
def execShl (x y : Nibble) (s : State) : Host.Outcome State Fault Refusal :=
  .next (flagThenResult x (fun s => shiftLeftFlag (s.reg (shiftSourceReg s.cfg x y)))
    (fun s => s.reg (shiftSourceReg s.cfg x y) <<< 1) s)

/-- Cxkk: `Random()` is the tick's rand byte (R133, R243). -/
def execRnd (x : Nibble) (kk : Byte) (s : State) : Host.Outcome State Fault Refusal :=
  .next (s.setReg x (s.rand &&& kk))

end Sys2Proof.Machine
end

