-- ==== Sys2Proof/Machine/ControlFlow.lean ====
section
/-! DEFINITION. Halt, jumps, calls, returns and the register skips (spec/40_control_flow.md).
Every meaning starts with PC already past the instruction (R100). -/

namespace Sys2Proof.Machine

/-- 0000 (R101). -/
def execHalt (s : State) : Host.Outcome State Fault Refusal := .next (s.setRun .halted)

/-- 00EE (R102). -/
def execRet (s : State) : Host.Outcome State Fault Refusal :=
  finish do
    let (target, s) ← s.pop
    return s.setPc target

/-- 1nnn (R103). -/
def execJp (nnn : Address) (s : State) : Host.Outcome State Fault Refusal :=
  .next (s.setPc (addressOf nnn))

/-- 2nnn (R104). -/
def execCall (nnn : Address) (s : State) : Host.Outcome State Fault Refusal :=
  finish do
    let s ← s.push s.pc
    return s.setPc (addressOf nnn)

/-- 3xkk (R105). -/
def execSeImm (x : Nibble) (kk : Byte) (s : State) : Host.Outcome State Fault Refusal :=
  .next (skipIf (s.reg x == kk) s)

/-- 4xkk (R106). -/
def execSneImm (x : Nibble) (kk : Byte) (s : State) : Host.Outcome State Fault Refusal :=
  .next (skipIf (s.reg x != kk) s)

/-- 5xy0 (R107). -/
def execSeReg (x y : Nibble) (s : State) : Host.Outcome State Fault Refusal :=
  .next (skipIf (s.reg x == s.reg y) s)

/-- 9xy0 (R108). -/
def execSneReg (x y : Nibble) (s : State) : Host.Outcome State Fault Refusal :=
  .next (skipIf (s.reg x != s.reg y) s)

/-- Bnnn (R109). -/
def execJpV0 (nnn : Address) (s : State) : Host.Outcome State Fault Refusal :=
  .next (s.setPc (indexedAddress s nnn))

end Sys2Proof.Machine
end

