-- ==== Sys2Proof/Machine/Display.lean ====
section
/-! DEFINITION. Clear and sprite draw (spec/43_display.md). -/

namespace Sys2Proof.Machine

/-- 00E0 (R172). -/
def execCls (s : State) : Host.Outcome State Fault Refusal := .next s.clearFb

/-- One bit of a sprite row (R173). -/
def drawBit (x0 y0 b : Byte) (row : Nat) (s : State) (col : Nat) : State :=
  if spriteBit b col then s.toggle (spriteColumn x0 col) (spriteRow y0 row) else s

/-- The eight bits of a sprite row, most significant first (R173). -/
def drawRow (x0 y0 b : Byte) (row : Nat) (s : State) : State :=
  (List.range 8).foldl (drawBit x0 y0 b row) s

/-- `n` sprite rows from `row` on, each byte read when its row is drawn (R173, R73). -/
def drawRows (x0 y0 : Byte) : Nat → Nat → State → Except Fault State
  | 0, _, s => .ok s
  | n + 1, row, s => do
    let b ← s.readByte (dataAddress s row)
    drawRows x0 y0 n (row + 1) (drawRow x0 y0 b row s)

/-- Dxyn: the origin is taken before VF is reset (R173). -/
def execDrw (x y : Nibble) (n : Nat) (s : State) : Host.Outcome State Fault Refusal :=
  finish (drawRows (s.reg x) (s.reg y) n 0 (s.setReg vf 0))

end Sys2Proof.Machine
end

