-- ==== Sys2Proof/Machine/IndexMemory.lean ====
section
/-! DEFINITION. The index register and memory transfers (spec/42_index_memory.md). -/

namespace Sys2Proof.Machine

/-- Annn (R150). -/
def execLdI (nnn : Address) (s : State) : Host.Outcome State Fault Refusal :=
  .next (s.setI (addressOf nnn))

/-- Fx1E: mod 2^16, VF untouched (R151). -/
def execAddIVx (x : Nibble) (s : State) : Host.Outcome State Fault Refusal :=
  .next (s.setI (s.i + (s.reg x).setWidth 16))

/-- Fx29 (R152). -/
def execLdFVx (x : Nibble) (s : State) : Host.Outcome State Fault Refusal :=
  .next (s.setI (glyphAddress (s.reg x)))

/-- Fx33 (R153). -/
def execLdBVx (x : Nibble) (s : State) : Host.Outcome State Fault Refusal :=
  finish do
    let (hundreds, tens, ones) := bcdDigits (s.reg x)
    let s ← s.writeByte (dataAddress s 0) hundreds
    let s ← s.writeByte (dataAddress s 1) tens
    s.writeByte (dataAddress s 2) ones

/-- Fx55: V0..Vx to memory, I unchanged (R154). -/
def execLdMemVx (x : Nibble) (s : State) : Host.Outcome State Fault Refusal :=
  finish (storeRegs (x.toNat + 1) 0 s)

/-- Fx65: memory to V0..Vx, I unchanged (R155). -/
def execLdVxMem (x : Nibble) (s : State) : Host.Outcome State Fault Refusal :=
  finish (loadRegs (x.toNat + 1) 0 s)

end Sys2Proof.Machine
end

