-- ==== Sys2Proof/Machine/InputTimers.lean ====
section
/-! DEFINITION. Key skips, the key wait and timer access (spec/44_input_timers.md). -/

namespace Sys2Proof.Machine

/-- Ex9E (R190). -/
def execSkp (x : Nibble) (s : State) : Host.Outcome State Fault Refusal :=
  finish do
    let down ← readKey s (s.reg x)
    return skipIf down s

/-- ExA1 (R191). -/
def execSknp (x : Nibble) (s : State) : Host.Outcome State Fault Refusal :=
  finish do
    let down ← readKey s (s.reg x)
    return skipIf (!down) s

/-- Fx07 (R193). -/
def execLdVxDt (x : Nibble) (s : State) : Host.Outcome State Fault Refusal :=
  .next (s.setReg x s.dt)

/-- Fx0A: the register is written by the poll that ends the wait (R192, R242). -/
def execLdVxK (x : Nibble) (s : State) : Host.Outcome State Fault Refusal :=
  .next (s.setRun (.awaitingKey x))

/-- Fx15: the accumulator is not reset (R194). -/
def execLdDtVx (x : Nibble) (s : State) : Host.Outcome State Fault Refusal :=
  .next (s.setDt (s.reg x))

/-- Fx18: the accumulator is not reset and nothing beeps (R195). -/
def execLdStVx (x : Nibble) (s : State) : Host.Outcome State Fault Refusal :=
  .next (s.setSt (s.reg x))

end Sys2Proof.Machine
end

