-- ==== Sys2Proof/Machine/Scheduler.lean ====
section
/-! DEFINITION. One tick of the cycle scheduler, phase by phase (spec/60_exceptions.md R240), and
the timer subsystem (R230 to R235). -/

namespace Sys2Proof.Machine

/-! ## Tick input (R245) -/

/-- The input of the tick about to be taken: the oldest one the host has fixed, else a free one
(log entry 1). -/
def State.nextInput (s : State) : TickInput :=
  match s.inputs with
  | inp :: _ => inp
  | [] => Config.hostInput s.tick

/-- Take the tick's input from the host: count the tick and latch the rand port. -/
def takeInput (inp : TickInput) (s : State) : State :=
  { s with inputs := s.inputs.tail, tick := s.tick + 1, rand := inp.rand }

/-! ## Poll (R241, R242) -/

/-- A pending key wait ends at the first key-down of the tick (R242). -/
def keyWait (downs : List Nibble) (s : State) : State :=
  match s.run with
  | .awaitingKey x =>
    match downs with
    | k :: _ => (s.setReg x (k.setWidth 8)).setRun .running
    | [] => s
  | .running => s
  | .halted => s
  | .faulted _ => s

/-- `Key <- in.keys`. -/
def State.setKeys (s : State) (keys : Vector Bool 16) : State := { s with key := keys }

/-- The poll phase: take the input, replace the key flags, then look at the key wait (R241). -/
def poll (inp : TickInput) (s : State) : State :=
  keyWait inp.downs ((takeInput inp s).setKeys inp.keys)

/-! ## Execute (R243, R244) -/

/-- The two-byte big-endian fetch at PC, each byte bounds-checked, PC + 1 unbounded (R64). -/
def fetch (s : State) : Except Fault Word := do
  let hi ← s.readByte s.pc.toNat
  let lo ← s.readByte (s.pc.toNat + 1)
  return joinBytes hi lo

/-- `ExecuteOne`: fetch, advance PC, decode, run the instruction (R243); each stage may fault, in
that order (R215). -/
def executeOne (s : State) : Host.Outcome State Fault Refusal :=
  match fetch s with
  | .error f => .fault f
  | .ok op =>
    match decode op with
    | .error _ => .fault (.unknownOpcode op)
    | .ok i => exec i s.advancePc

/-- `if run = Running then ExecuteOne` (R240, R244). -/
def executePhase (s : State) : Host.Outcome State Fault Refusal :=
  match s.run with
  | .running => executeOne s
  | .awaitingKey _ => .next s
  | .halted => .next s
  | .faulted _ => .next s

/-! ## Output, timers, quit check (R247, R232, R249) -/

/-- `fb_out <- Fb`. -/
def outputFb (s : State) : State := { s with fbOut := s.fb }

/-- `while acc >= P: (if T > 0 then T <- T - 1 and note a 1-to-0 step; acc <- acc - P)`: the new
timer, the new accumulator, and whether a decrement reached 0. The fuel bounds the loop; the
accumulator itself is fuel enough, since P is positive (R232). -/
def drainTimer (period : Nat) : Nat → Nat → Byte → Bool → Byte × Nat × Bool
  | 0, acc, t, hit => (t, acc, hit)
  | fuel + 1, acc, t, hit =>
    if period ≤ acc then
      if 0 < t.toNat then drainTimer period fuel (acc - period) (t - 1) (hit || t == 1)
      else drainTimer period fuel (acc - period) t hit
    else (t, acc, hit)

/-- The loop of R232 for one timer after `elapsed` units. -/
def advanceTimer (period elapsed acc : Nat) (t : Byte) : Byte × Nat × Bool :=
  drainTimer period (acc + elapsed) (acc + elapsed) t false

/-- `beep <- 0; AdvanceTimers(elapsed)` (R232, R240). -/
def advanceTimers (elapsed : Nat) (s : State) : State :=
  let d := advanceTimer s.cfg.unitsPerPeriod elapsed s.accDT s.dt
  let b := advanceTimer s.cfg.unitsPerPeriod elapsed s.accST s.st
  { s with dt := d.1, accDT := d.2.1, st := b.1, accST := b.2.1, beep := b.2.2 }

/-- `if in.quit then quit <- 1; if quit = 1 then run <- Halted` (R249). -/
def quitCheck (inQuit : Bool) (s : State) : State :=
  { s with quit := s.quit || inQuit, run := if s.quit || inQuit then .halted else s.run }

/-- The phases after the execute phase, in order (R240). Pacing changes nothing (R248). -/
def endTick (inp : TickInput) (s : State) : State :=
  quitCheck inp.quit (advanceTimers inp.elapsed (outputFb s))

/-- One tick from Running or AwaitingKey (R240); a fault ends it at once (R212). -/
def tickWith (inp : TickInput) (s : State) : Host.Outcome State Fault Refusal :=
  afterNext (executePhase (poll inp s)) (endTick inp)

/-- One tick: none exists from Halted or Faulted (R246). -/
def tickOnce (s : State) : Host.Outcome State Fault Refusal :=
  match s.run with
  | .running => tickWith s.nextInput s
  | .awaitingKey _ => tickWith s.nextInput s
  | .halted => .refused .noTick
  | .faulted _ => .refused .noTick

/-- Port run after the tick from `s`: the run state, or the fault record (R212, R253). -/
def runOut (s : State) : RunState :=
  match tickOnce s with
  | .next t => t.run
  | .fault f => .faulted f
  | .refused _ => s.run

/-! ## Placing an instruction -/

/-- Put two bytes where the next fetch reads them. -/
def placeWord (s : State) (op : Word) : State :=
  let a := s.pc.toNat
  { s with mem := Memory.write s.cfg (Memory.write s.cfg s.mem a (highByte op)) (a + 1) (lowByte op) }

/-- Make the next tick fetch: Running, and PC where two bytes of memory are. -/
def readyToFetch (s : State) : State :=
  { s with run := .running, pc := if s.pc.toNat + 1 < memSize then s.pc else 0x200 }

end Sys2Proof.Machine
end

