-- ==== Sys2Proof/Machine/Step.lean ====
section
/-! DEFINITION. The step of the machine: one tick. Everything it calls stands in
Machine/Scheduler.lean. -/

namespace Sys2Proof.Machine

/-- One step is one tick (R240). -/
def step (s : State) : Host.Outcome State Fault Refusal := tickOnce s

/-- `s` with an opcode-table word where `step` fetches its next instruction (log entry 9). -/
def State.withFetchWord (s : State) (nbits w : Nat) : State :=
  placeWord (readyToFetch s) (tableWord nbits w)

end Sys2Proof.Machine
end

