-- ==== Sys2Proof/Safety.lean ====
section
/-! DEFINITION. The terms claims use: invariants of the machine, safe steps and reachable states,
and which instruction writes which state (spec/10_state.md R21 to R24). -/

namespace Sys2Proof.Machine

/-- Memory is in canonical form, UNITS_PER_PERIOD is positive (R8), and the two accumulators are
equal and below it (R33, R234). SP needs no clause: its type is 0..16 (R29). -/
structure Inv (s : State) : Prop where
  mem : Memory.wf s.cfg s.mem = true
  cfg : s.cfg.wf
  acc : s.accDT < s.cfg.unitsPerPeriod
  accEq : s.accST = s.accDT

/-- No address in the core exceeds what an instruction can make of it: PC is at most 0x10FE, and
every stack entry is a return address at most 4096 (R28). -/
structure PcBound (s : State) : Prop where
  pc : s.pc.toNat ≤ 0x10FE
  stack : ∀ j : Fin 16, s.stack[j].toNat ≤ 4096

/-- A tick can be taken: the run state is neither Halted nor Faulted (R240, R246). -/
def CanTick (s : State) : Prop := s.run = .running ∨ ∃ x, s.run = .awaitingKey x

/-- The next step does not fault. -/
def Safe (s : State) : Prop := ∀ f, step s ≠ .fault f

/-- The run has ended well (R250). -/
def EndedWell (s : State) : Prop := s.run = .halted

/-- The run ends badly in the next tick, with this fault record (R250; log entry 5). -/
def EndsBadly (s : State) (f : Fault) : Prop := runOut s = .faulted f

/-- `t` comes after some number of steps from `s`. -/
inductive Reaches (s : State) : State → Prop where
  | refl : Reaches s s
  | step {t u : State} : Reaches s t → step t = .next u → Reaches s u

/-- The instruction writes VF as a flag (R21). -/
def writesFlag : Instr → Bool
  | .addReg _ _ | .subReg _ _ | .shr _ _ | .subn _ _ | .shl _ _ | .drw _ _ _ => true
  | _ => false

/-- The register `x` the instruction names as its one destination (R23). Fx0A is not here: its
register is written by a later poll (R242). -/
def namedDest : Instr → Option Nibble
  | .ldImm x _ | .addImm x _ | .rnd x _ | .ldVxDt x => some x
  | .ldReg x _ | .orReg x _ | .andReg x _ | .xorReg x _ => some x
  | .addReg x _ | .subReg x _ | .shr x _ | .subn x _ | .shl x _ => some x
  | _ => none

/-- `z` is a register the instruction names as a destination: Fx65 names V0..Vx (R23). -/
def writesReg (i : Instr) (z : Nibble) : Bool :=
  match i with
  | .ldVxMem x => decide (z.toNat ≤ x.toNat)
  | _ => namedDest i == some z

/-- The instruction writes I (R24). -/
def writesI : Instr → Bool
  | .ldI _ | .addIVx _ | .ldFVx _ => true
  | _ => false

/-- The instruction writes memory (R62). -/
def writesMem : Instr → Bool
  | .ldBVx _ | .ldMemVx _ => true
  | _ => false

/-- The instruction uses the call stack (R30). -/
def usesStack : Instr → Bool
  | .ret | .call _ => true
  | _ => false

/-- The instruction changes the framebuffer (R37). -/
def writesFb : Instr → Bool
  | .cls | .drw _ _ _ => true
  | _ => false

/-- The instruction changes the run state (R244). -/
def writesRun : Instr → Bool
  | .halt | .ldVxK _ => true
  | _ => false

/-- The instruction changes PC beyond the fetch's advance (R27). -/
def writesPc : Instr → Bool
  | .ret | .jp _ | .call _ | .jpV0 _ | .seImm _ _ | .sneImm _ _ | .seReg _ _ | .sneReg _ _
  | .skp _ | .sknp _ => true
  | _ => false

end Sys2Proof.Machine
end

