-- ==== Sys2Proof/Certificates/Slice0/Obligations.lean ====
section
/-! DEFINITION. The statements about the core, for the provers. `t = { s with f := t.f }` says that
`t` differs from `s` in the field `f` at most; beside it, each statement says with `byteAt` which
bytes of memory read as before. On entry to `exec`, PC is already past the instruction
(spec/40_control_flow.md R100). -/

open Sys2Proof Sys2Proof.Machine

/-! ## Encoding (spec/30_encoding.md) -/

/-- Decoding the word of a well-formed instruction gives the instruction back. -/
def Obligations.DecodeAfterEncode : Prop :=
  ∀ i : Instr, i.wellFormed = true →
    decode (encode i) = .ok i ∧ ∀ rest, decodeBytes (encodeBytes i ++ rest) = .ok (i, rest)

/-- A word that decodes is the word of its instruction, which is well formed: no bit is dropped. -/
def Obligations.EncodeAfterDecode : Prop :=
  ∀ (op : Word) (i : Instr), decode op = .ok i → encode i = op ∧ i.wellFormed = true

/-- R83 with the field positions of R81: the fields rebuild the word. -/
def Obligations.FieldsRebuildTheWord : Prop :=
  ∀ op : Word,
    op.toNat = (fieldO op).toNat * 2 ^ 12 + (fieldNnn op).toNat ∧
    op.toNat = (fieldO op).toNat * 2 ^ 12 + (fieldX op).toNat * 2 ^ 8 + (fieldY op).toNat * 2 ^ 4
      + (fieldN op).toNat ∧
    (fieldNnn op).toNat = (fieldX op).toNat * 2 ^ 8 + (fieldKk op).toNat ∧
    (fieldKk op).toNat = (fieldY op).toNat * 2 ^ 4 + (fieldN op).toNat

/-- R87: of the 35 rows, decoding selects the one whose fixed bits the word has, and fails when no
row has them. -/
def Obligations.DecodeSelectsTheMatchingRow : Prop :=
  opcodeMap.length = 35 ∧ ∀ op : Word,
    (∀ i, decode op = .ok i → opcodeRow i ∈ opcodeMap ∧ op &&& (opcodeRow i).mask = (opcodeRow i).fixed ∧
      ∀ r ∈ opcodeMap, op &&& r.mask = r.fixed → r = opcodeRow i) ∧
    ((∃ r ∈ opcodeMap, op &&& r.mask = r.fixed) → ∃ i, decode op = .ok i) ∧
    ((∀ r ∈ opcodeMap, op &&& r.mask ≠ r.fixed) → decode op = .error (.unknownOpcode op))

/-- The illegal words, group by group. -/
def Obligations.IllegalWordsByGroup : Prop :=
  ∀ op : Word, decode op = .error (.unknownOpcode op) ↔
    (op.toNat / 4096 = 0x0 ∧ op.toNat % 4096 ≠ 0 ∧ op.toNat % 4096 ≠ 0x0E0 ∧ op.toNat % 4096 ≠ 0x0EE) ∨
    ((op.toNat / 4096 = 0x5 ∨ op.toNat / 4096 = 0x9) ∧ op.toNat % 16 ≠ 0) ∨
    (op.toNat / 4096 = 0x8 ∧ 8 ≤ op.toNat % 16 ∧ op.toNat % 16 ≠ 0xE) ∨
    (op.toNat / 4096 = 0xE ∧ op.toNat % 256 ≠ 0x9E ∧ op.toNat % 256 ≠ 0xA1) ∨
    (op.toNat / 4096 = 0xF ∧
      op.toNat % 256 ∉ [0x07, 0x0A, 0x15, 0x18, 0x1E, 0x29, 0x33, 0x55, 0x65])

/-- Words written out from the patterns of R87 decode to what they stand for. -/
def Obligations.WrittenOutWordsDecode : Prop :=
  decodeBytes [0x00, 0x00] = .ok (.halt, []) ∧
  decodeBytes [0x2A, 0xBC] = .ok (.call 0xABC, []) ∧
  decodeBytes [0x81, 0x2E] = .ok (.shl 0x1 0x2, []) ∧
  decodeBytes [0xC3, 0x0F] = .ok (.rnd 0x3 0x0F, []) ∧
  decodeBytes [0xD1, 0x25, 0x77] = .ok (.drw 0x1 0x2 5, [0x77]) ∧
  decodeBytes [0xF3, 0x65] = .ok (.ldVxMem 0x3, []) ∧
  decodeBytes [0x50, 0x01] = .error (.unknownOpcode 0x5001) ∧
  decodeBytes [0x01, 0xE0] = .error (.unknownOpcode 0x01E0)

/-! ## Reset and boot (spec/70_reset_and_hazards.md) -/

/-- A ROM of 1 to 3584 bytes is accepted, and the state is all zero but for FONT, the ROM, PC and the
run state, the quit flag false (the spec's decision D21, log entry 16); any other ROM is refused before
a state is built (the spec's decision D31, log entry 20). -/
def Obligations.BootBuildsTheResetState : Prop :=
  ∀ (cfg : Config) (rom : List Byte),
    (rom.length = 0 → boot cfg rom = .error .emptyRom) ∧
    (3584 < rom.length → boot cfg rom = .error (.romTooLarge rom.length)) ∧
    (0 < rom.length → rom.length ≤ 3584 → ∃ s, boot cfg rom = .ok s ∧
      s.cfg = cfg ∧ s.pc = 0x200 ∧ s.run = .running ∧
      (∀ x, s.reg x = 0) ∧ s.i = 0 ∧ s.sp = 0 ∧ (∀ j : Fin 16, s.stack[j] = 0) ∧
      s.dt = 0 ∧ s.st = 0 ∧ s.accDT = 0 ∧ s.accST = 0 ∧
      (∀ c r, s.pixel c r = false) ∧ (∀ k : Fin 16, s.key[k] = false) ∧ s.quit = false ∧
      (∀ a (h : a < 80), s.byteAt a = cfg.font[a]) ∧
      (∀ k (h : k < rom.length), s.byteAt (0x200 + k) = rom[k]) ∧
      (∀ a, 80 ≤ a → a < 0x200 ∨ 0x200 + rom.length ≤ a → s.byteAt a = 0))

/-- The reset state of this model: the spec's default configuration and no ROM. The font bytes, the
open period and the absence of a ROM are the model's choice: log entries 2, 4 and 9. -/
def Obligations.ResetStateIsZeroed : Prop :=
  State.reset.pc = 0x200 ∧ State.reset.run = .running ∧ (∀ x, State.reset.reg x = 0) ∧
  State.reset.i = 0 ∧ State.reset.sp = 0 ∧ (∀ j : Fin 16, State.reset.stack[j] = 0) ∧
  State.reset.dt = 0 ∧ State.reset.st = 0 ∧ State.reset.accDT = 0 ∧ State.reset.accST = 0 ∧
  (∀ c r, State.reset.pixel c r = false) ∧ (∀ k : Fin 16, State.reset.key[k] = false) ∧
  State.reset.quit = false ∧ State.reset.cfg.shiftSource = .vy ∧
  (∀ a (h : a < 80), State.reset.byteAt a = State.reset.cfg.font[a]) ∧
  (∀ a, 80 ≤ a → State.reset.byteAt a = 0)

/-! ## One tick (spec/60_exceptions.md) -/

/-- R243: where a tick can be taken, the core runs after the poll, and the two bytes at PC decode to
`i`, the step is `i` run with PC two further, then the end of the tick. -/
def Obligations.StepRunsTheDecodedInstruction : Prop :=
  ∀ (s p : State) (op : Word) (i : Instr), CanTick s → p = poll s.nextInput s → p.run = .running →
    p.pc.toNat + 1 < 4096 →
    op.toNat = (p.byteAt p.pc.toNat).toNat * 256 + (p.byteAt (p.pc.toNat + 1)).toNat →
    decode op = .ok i →
    step s = afterNext (exec i { p with pc := p.pc + 2 }) (endTick s.nextInput)

/-- A fetch outside memory faults with its first failing address (the spec's decision D11). -/
def Obligations.FetchFaultsOutsideMemory : Prop :=
  ∀ s p : State, CanTick s → p = poll s.nextInput s → p.run = .running →
    (4096 ≤ p.pc.toNat → step s = .fault (.addressOutOfRange p.pc.toNat 4096)) ∧
    (p.pc.toNat = 4095 → step s = .fault (.addressOutOfRange 4096 4096))

/-- R85: a fetched word that matches no row of the map faults with that word. -/
def Obligations.UnknownOpcodeFaults : Prop :=
  ∀ (s p : State) (op : Word), CanTick s → p = poll s.nextInput s → p.run = .running →
    p.pc.toNat + 1 < 4096 →
    op.toNat = (p.byteAt p.pc.toNat).toNat * 256 + (p.byteAt (p.pc.toNat + 1)).toNat →
    (∀ r ∈ opcodeMap, op &&& r.mask ≠ r.fixed) →
    step s = .fault (.unknownOpcode op)

/-- The poll replaces the key flags and ends a key wait at the first key-down of the tick, whose code
goes to the waiting register (the spec's decisions D18 and D29); it latches the rand byte (log entry
8) and changes nothing else. -/
def Obligations.PollReplacesKeysAndEndsTheWait : Prop :=
  ∀ (inp : TickInput) (s : State),
    (poll inp s).key = inp.keys ∧ (poll inp s).rand = inp.rand ∧
    (∀ x k ks, s.run = .awaitingKey x → inp.downs = k :: ks →
      (poll inp s).run = .running ∧ ((poll inp s).reg x).toNat = k.toNat ∧
      ∀ z, z ≠ x → (poll inp s).reg z = s.reg z) ∧
    ((∀ x, s.run ≠ .awaitingKey x) ∨ inp.downs = [] → (poll inp s).run = s.run ∧ (poll inp s).v = s.v) ∧
    poll inp s = { s with key := inp.keys, rand := inp.rand, inputs := s.inputs.tail,
                          tick := s.tick + 1, v := (poll inp s).v, run := (poll inp s).run }

/-- A tick of a key wait without a key-down runs no instruction: PC, registers, I, memory, stack and
framebuffer stay, the framebuffer is output, both timers and their accumulators advance by the elapsed
units, and the beep tells whether ST went to 0 (the spec's decision D18). -/
def Obligations.WaitingTickRunsNoInstruction : Prop :=
  ∀ (s : State) (x : Nibble), s.run = .awaitingKey x → s.nextInput.downs = [] →
    ∃ t, step s = .next t ∧ t.pc = s.pc ∧ t.v = s.v ∧ t.i = s.i ∧ t.stack = s.stack ∧ t.sp = s.sp ∧
      t.fb = s.fb ∧ t.fbOut = s.fb ∧ (∀ a, t.byteAt a = s.byteAt a) ∧
      (s.quit = false → s.nextInput.quit = false → t.run = .awaitingKey x) ∧
      (s.cfg.wf →
        t.dt.toNat = s.dt.toNat - (s.accDT + s.nextInput.elapsed) / s.cfg.unitsPerPeriod ∧
        t.accDT = (s.accDT + s.nextInput.elapsed) % s.cfg.unitsPerPeriod ∧
        t.st.toNat = s.st.toNat - (s.accST + s.nextInput.elapsed) / s.cfg.unitsPerPeriod ∧
        t.accST = (s.accST + s.nextInput.elapsed) % s.cfg.unitsPerPeriod ∧
        (t.beep = true ↔
          1 ≤ s.st.toNat ∧ s.st.toNat ≤ (s.accST + s.nextInput.elapsed) / s.cfg.unitsPerPeriod))

/-- R247: in every tick that does not fault, the framebuffer is output as it is after the execute
phase, and it stays so to the tick's end. -/
def Obligations.EveryTickOutputsTheFramebuffer : Prop :=
  ∀ s t : State, step s = .next t → (∀ c r, t.fbOut.get c r = t.pixel c r) ∧
    (∀ u, executePhase (poll s.nextInput s) = .next u → ∀ c r, t.fbOut.get c r = u.pixel c r)

/-- R232: AdvanceTimers runs one loop for DT and its accumulator and one for ST and its own, whose note
is the beep. The loop, pass by pass: below one period nothing happens; else one period leaves the
accumulator, the timer steps down unless it is 0, and a step to 0 is noted. -/
def Obligations.TimerLoopPass : Prop :=
  (∀ (s : State) (elapsed : Nat), advanceTimers elapsed s = { s with
      dt := (advanceTimer s.cfg.unitsPerPeriod elapsed s.accDT s.dt).1,
      accDT := (advanceTimer s.cfg.unitsPerPeriod elapsed s.accDT s.dt).2.1,
      st := (advanceTimer s.cfg.unitsPerPeriod elapsed s.accST s.st).1,
      accST := (advanceTimer s.cfg.unitsPerPeriod elapsed s.accST s.st).2.1,
      beep := (advanceTimer s.cfg.unitsPerPeriod elapsed s.accST s.st).2.2 }) ∧
  ∀ (period elapsed acc : Nat) (t : Byte), 0 < period →
    (acc + elapsed < period → advanceTimer period elapsed acc t = (t, acc + elapsed, false)) ∧
    (period ≤ acc + elapsed → t.toNat = 0 →
      advanceTimer period elapsed acc t = advanceTimer period (acc + elapsed - period) 0 t) ∧
    (period ≤ acc + elapsed → 0 < t.toNat →
      (advanceTimer period elapsed acc t).1 = (advanceTimer period (acc + elapsed - period) 0 (t - 1)).1 ∧
      (advanceTimer period elapsed acc t).2.1
        = (advanceTimer period (acc + elapsed - period) 0 (t - 1)).2.1 ∧
      (advanceTimer period elapsed acc t).2.2
        = (decide (t.toNat = 1) || (advanceTimer period (acc + elapsed - period) 0 (t - 1)).2.2))

/-- The closed form of the timer phase, with the beep, and what it leaves alone (derived in the spec
from the loop). -/
def Obligations.TimerPhaseClosedForm : Prop :=
  ∀ (s : State) (elapsed : Nat), s.cfg.wf →
    (advanceTimers elapsed s).dt.toNat = s.dt.toNat - (s.accDT + elapsed) / s.cfg.unitsPerPeriod ∧
    (advanceTimers elapsed s).accDT = (s.accDT + elapsed) % s.cfg.unitsPerPeriod ∧
    (advanceTimers elapsed s).st.toNat = s.st.toNat - (s.accST + elapsed) / s.cfg.unitsPerPeriod ∧
    (advanceTimers elapsed s).accST = (s.accST + elapsed) % s.cfg.unitsPerPeriod ∧
    ((advanceTimers elapsed s).beep = true ↔
      1 ≤ s.st.toNat ∧ s.st.toNat ≤ (s.accST + elapsed) / s.cfg.unitsPerPeriod) ∧
    advanceTimers elapsed s = { s with
      dt := (advanceTimers elapsed s).dt, accDT := (advanceTimers elapsed s).accDT,
      st := (advanceTimers elapsed s).st, accST := (advanceTimers elapsed s).accST,
      beep := (advanceTimers elapsed s).beep }

/-- Every tick that does not fault, whether it ran an instruction or waited, ends with the timer advance
on the state `u` its execute phase left, then the quit check: the flag collects the tick's quit signal;
once set, the run state is Halted, and until then it stays as in `u` (the spec's decisions D20 and D21).
Beside these and the output port, nothing of `u` changes. -/
def Obligations.QuitCheckEndsTheTick : Prop :=
  ∀ s t : State, step s = .next t → ∃ u, executePhase (poll s.nextInput s) = .next u ∧
    t.dt = (advanceTimers s.nextInput.elapsed u).dt ∧
    t.accDT = (advanceTimers s.nextInput.elapsed u).accDT ∧
    t.st = (advanceTimers s.nextInput.elapsed u).st ∧
    t.accST = (advanceTimers s.nextInput.elapsed u).accST ∧
    t.beep = (advanceTimers s.nextInput.elapsed u).beep ∧
    t.quit = (s.quit || s.nextInput.quit) ∧
    (t.quit = true → t.run = .halted) ∧ (t.quit = false → t.run = u.run) ∧
    t = { u with dt := t.dt, accDT := t.accDT, st := t.st, accST := t.accST, beep := t.beep,
                 fbOut := t.fbOut, quit := t.quit, run := t.run }

/-- No tick from Halted or Faulted exists; this model refuses it by name (the spec's decision D20, log
entry 6). From any other run state the step is no refusal. -/
def Obligations.TicksOnlyFromRunningAndWaiting : Prop :=
  ∀ s : State, (¬ CanTick s → step s = .refused .noTick) ∧ (CanTick s → ∀ r, step s ≠ .refused r)

/-- A fault of the tick's instruction ends the tick at once, and the run port shows its record: no
output, timer or quit phase intervenes (the spec's decisions D9 and D28, log entry 5). -/
def Obligations.FaultEndsTheTick : Prop :=
  ∀ (s : State) (f : Fault), CanTick s → executePhase (poll s.nextInput s) = .fault f →
    step s = .fault f ∧ runOut s = .faulted f

/-! ## Invariants -/

/-- Every step keeps: memory canonical and inside 4096 bytes, the period positive, the accumulators
equal and below it. -/
def Obligations.StepKeepsTheInvariant : Prop :=
  ∀ s t : State, Inv s → step s = .next t → Inv t

/-- Every step keeps PC at most 0x10FE and stack entries at most 4096. -/
def Obligations.StepKeepsThePcBound : Prop :=
  ∀ s t : State, PcBound s → step s = .next t → PcBound t

/-- Both invariants hold at reset. -/
def Obligations.ResetMeetsTheInvariants : Prop := Inv State.reset ∧ PcBound State.reset

/-- Both invariants hold after booting any ROM the loader accepts, under any configuration. -/
def Obligations.BootMeetsTheInvariants : Prop :=
  ∀ (cfg : Config) (rom : List Byte) (s : State), cfg.wf → boot cfg rom = .ok s → Inv s ∧ PcBound s

/-- A step never changes the configuration, takes one input and counts one tick (the model's own
fields: log entries 1 and 3). -/
def Obligations.StepKeepsTheConfiguration : Prop :=
  ∀ s t : State, step s = .next t →
    t.cfg = s.cfg ∧ t.inputs = s.inputs.tail ∧ t.tick = s.tick + 1 ∧ t.key = s.nextInput.keys

/-- Equal memories are equal data: two canonical memories that read alike are the same list (the
model's representation: log entry 19). -/
def Obligations.CanonicalMemoriesAreEqual : Prop :=
  ∀ (c : Config) (m m' : Memory), Memory.wf c m = true → Memory.wf c m' = true →
    (∀ a, a < 4096 → Memory.read c m a = Memory.read c m' a) → m = m'

/-! ## Control flow (spec/40_control_flow.md) -/

/-- R101. -/
def Obligations.HaltStopsTheRun : Prop :=
  ∀ s : State, ∃ t, exec .halt s = .next t ∧ t.run = .halted ∧ t = { s with run := t.run } ∧
    ∀ a, t.byteAt a = s.byteAt a

/-- R102: RET pops the return address, which stays in its entry, or faults on an empty stack. -/
def Obligations.ReturnPopsTheStack : Prop :=
  ∀ s : State,
    (s.sp.val = 0 → exec .ret s = .fault .stackUnderflow) ∧
    (∀ h : 0 < s.sp.val, ∃ t, exec .ret s = .next t ∧ t.sp.val = s.sp.val - 1 ∧
      t.pc = s.stack[s.sp.val - 1] ∧ t = { s with pc := t.pc, sp := t.sp } ∧
      ∀ a, t.byteAt a = s.byteAt a)

/-- R103. -/
def Obligations.JumpGoesToTheAddress : Prop :=
  ∀ (nnn : Address) (s : State), ∃ t, exec (.jp nnn) s = .next t ∧ t.pc.toNat = nnn.toNat ∧
    t = { s with pc := t.pc } ∧ ∀ a, t.byteAt a = s.byteAt a

/-- R104: CALL pushes the PC it was entered with (a + 2) and jumps, or faults on a full stack. -/
def Obligations.CallPushesAndJumps : Prop :=
  ∀ (nnn : Address) (s : State),
    (s.sp.val = 16 → exec (.call nnn) s = .fault .stackOverflow) ∧
    (∀ h : s.sp.val < 16, ∃ t, exec (.call nnn) s = .next t ∧ t.sp.val = s.sp.val + 1 ∧
      t.stack[s.sp.val] = s.pc ∧ (∀ j : Fin 16, j.val ≠ s.sp.val → t.stack[j] = s.stack[j]) ∧
      t.pc.toNat = nnn.toNat ∧ t = { s with pc := t.pc, sp := t.sp, stack := t.stack } ∧
      ∀ a, t.byteAt a = s.byteAt a)

/-- R105, R106: the skips on an immediate. -/
def Obligations.SkipsOnAnImmediate : Prop :=
  ∀ (x : Nibble) (kk : Byte) (s : State),
    (∃ t, exec (.seImm x kk) s = .next t ∧
      t.pc.toNat = (if s.reg x = kk then (s.pc.toNat + 2) % 65536 else s.pc.toNat) ∧
      t = { s with pc := t.pc } ∧ ∀ a, t.byteAt a = s.byteAt a) ∧
    (∃ t, exec (.sneImm x kk) s = .next t ∧
      t.pc.toNat = (if s.reg x ≠ kk then (s.pc.toNat + 2) % 65536 else s.pc.toNat) ∧
      t = { s with pc := t.pc } ∧ ∀ a, t.byteAt a = s.byteAt a)

/-- R107, R108: the skips on two registers. -/
def Obligations.SkipsOnTwoRegisters : Prop :=
  ∀ (x y : Nibble) (s : State),
    (∃ t, exec (.seReg x y) s = .next t ∧
      t.pc.toNat = (if s.reg x = s.reg y then (s.pc.toNat + 2) % 65536 else s.pc.toNat) ∧
      t = { s with pc := t.pc } ∧ ∀ a, t.byteAt a = s.byteAt a) ∧
    (∃ t, exec (.sneReg x y) s = .next t ∧
      t.pc.toNat = (if s.reg x ≠ s.reg y then (s.pc.toNat + 2) % 65536 else s.pc.toNat) ∧
      t = { s with pc := t.pc } ∧ ∀ a, t.byteAt a = s.byteAt a)

/-- Bnnn adds V0 and is not masked to 12 bits (the spec's decision D14). -/
def Obligations.JumpAddsV0 : Prop :=
  ∀ (nnn : Address) (s : State), ∃ t, exec (.jpV0 nnn) s = .next t ∧
    t.pc.toNat = (s.reg 0).toNat + nnn.toNat ∧ t = { s with pc := t.pc } ∧
    ∀ a, t.byteAt a = s.byteAt a

/-- A return after a call comes back to the PC the call was entered with, wherever the subroutine's
own PC has gone. -/
def Obligations.ReturnUndoesCall : Prop :=
  ∀ (nnn : Address) (w : Word) (s t : State), exec (.call nnn) s = .next t →
    ∃ u, exec .ret (t.setPc w) = .next u ∧ u.pc = s.pc ∧ u.sp = s.sp

/-! ## Loads, arithmetic, logic (spec/41_arithmetic.md) -/

/-- R121, R123: loads of an immediate and of a register. -/
def Obligations.LoadsImmediatesAndRegisters : Prop :=
  ∀ (x y : Nibble) (kk : Byte) (s : State),
    (∃ t, exec (.ldImm x kk) s = .next t ∧ t.reg x = kk ∧ (∀ z, z ≠ x → t.reg z = s.reg z) ∧
      t = { s with v := t.v } ∧ ∀ a, t.byteAt a = s.byteAt a) ∧
    (∃ t, exec (.ldReg x y) s = .next t ∧ t.reg x = s.reg y ∧ (∀ z, z ≠ x → t.reg z = s.reg z) ∧
      t = { s with v := t.v } ∧ ∀ a, t.byteAt a = s.byteAt a)

/-- R122: the immediate add wraps and records no carry. -/
def Obligations.AddImmediateWraps : Prop :=
  ∀ (x : Nibble) (kk : Byte) (s : State), ∃ t, exec (.addImm x kk) s = .next t ∧
    (t.reg x).toNat = ((s.reg x).toNat + kk.toNat) % 256 ∧ (∀ z, z ≠ x → t.reg z = s.reg z) ∧
    t = { s with v := t.v } ∧ ∀ a, t.byteAt a = s.byteAt a

/-- R124, R125, R126: bit by bit, VF untouched unless it is x. -/
def Obligations.LogicWorksBitByBit : Prop :=
  ∀ (x y : Nibble) (s : State),
    (∃ t, exec (.orReg x y) s = .next t ∧
      (∀ b, (t.reg x).getLsbD b = ((s.reg x).getLsbD b || (s.reg y).getLsbD b)) ∧
      (∀ z, z ≠ x → t.reg z = s.reg z) ∧ t = { s with v := t.v } ∧ ∀ a, t.byteAt a = s.byteAt a) ∧
    (∃ t, exec (.andReg x y) s = .next t ∧
      (∀ b, (t.reg x).getLsbD b = ((s.reg x).getLsbD b && (s.reg y).getLsbD b)) ∧
      (∀ z, z ≠ x → t.reg z = s.reg z) ∧ t = { s with v := t.v } ∧ ∀ a, t.byteAt a = s.byteAt a) ∧
    (∃ t, exec (.xorReg x y) s = .next t ∧
      (∀ b, (t.reg x).getLsbD b = ((s.reg x).getLsbD b != (s.reg y).getLsbD b)) ∧
      (∀ z, z ≠ x → t.reg z = s.reg z) ∧ t = { s with v := t.v } ∧ ∀ a, t.byteAt a = s.byteAt a)

/-- 8xy4: VF gets the carry first, and the sum is of the registers as they then stand (the spec's
decision D7). -/
def Obligations.AddSetsCarryThenSum : Prop :=
  ∀ (x y : Nibble) (s : State) (c vx vy : Nat),
    c = (if (s.reg x).toNat + (s.reg y).toNat > 255 then 1 else 0) →
    vx = (if x = 0xF then c else (s.reg x).toNat) →
    vy = (if y = 0xF then c else (s.reg y).toNat) →
    ∃ t, exec (.addReg x y) s = .next t ∧ (t.reg x).toNat = (vx + vy) % 256 ∧
      (x ≠ 0xF → (t.reg 0xF).toNat = c) ∧ (∀ z, z ≠ x → z ≠ 0xF → t.reg z = s.reg z) ∧
      t = { s with v := t.v } ∧ ∀ a, t.byteAt a = s.byteAt a

/-- 8xy5 and 8xy7: VF gets "strictly greater" first, and the difference is of the registers as they
then stand (the spec's decision D7). -/
def Obligations.SubtractSetsNoBorrowThenDifference : Prop :=
  ∀ (x y : Nibble) (s : State),
    (∀ c vx vy : Nat, c = (if (s.reg x).toNat > (s.reg y).toNat then 1 else 0) →
      vx = (if x = 0xF then c else (s.reg x).toNat) → vy = (if y = 0xF then c else (s.reg y).toNat) →
      ∃ t, exec (.subReg x y) s = .next t ∧ (t.reg x).toNat = (vx + 256 - vy) % 256 ∧
        (x ≠ 0xF → (t.reg 0xF).toNat = c) ∧ (∀ z, z ≠ x → z ≠ 0xF → t.reg z = s.reg z) ∧
        t = { s with v := t.v } ∧ ∀ a, t.byteAt a = s.byteAt a) ∧
    (∀ c vx vy : Nat, c = (if (s.reg y).toNat > (s.reg x).toNat then 1 else 0) →
      vx = (if x = 0xF then c else (s.reg x).toNat) → vy = (if y = 0xF then c else (s.reg y).toNat) →
      ∃ t, exec (.subn x y) s = .next t ∧ (t.reg x).toNat = (vy + 256 - vx) % 256 ∧
        (x ≠ 0xF → (t.reg 0xF).toNat = c) ∧ (∀ z, z ≠ x → z ≠ 0xF → t.reg z = s.reg z) ∧
        t = { s with v := t.v } ∧ ∀ a, t.byteAt a = s.byteAt a)

/-- 8xy6 and 8xyE: the shift source is Vy, or Vx where SHIFT_SOURCE says so; VF gets the bit shifted
out first, and the result is of the source as it then stands (the spec's decisions D7 and D25). -/
def Obligations.ShiftsSetTheBitOutThenTheResult : Prop :=
  ∀ (x y src : Nibble) (s : State), src = (if s.cfg.shiftSource = .vy then y else x) →
    (∀ c v : Nat, c = (s.reg src).toNat % 2 → v = (if src = 0xF then c else (s.reg src).toNat) →
      ∃ t, exec (.shr x y) s = .next t ∧ (t.reg x).toNat = v / 2 ∧
        (x ≠ 0xF → (t.reg 0xF).toNat = c) ∧ (∀ z, z ≠ x → z ≠ 0xF → t.reg z = s.reg z) ∧
        t = { s with v := t.v } ∧ ∀ a, t.byteAt a = s.byteAt a) ∧
    (∀ c v : Nat, c = (s.reg src).toNat / 128 → v = (if src = 0xF then c else (s.reg src).toNat) →
      ∃ t, exec (.shl x y) s = .next t ∧ (t.reg x).toNat = 2 * v % 256 ∧
        (x ≠ 0xF → (t.reg 0xF).toNat = c) ∧ (∀ z, z ≠ x → z ≠ 0xF → t.reg z = s.reg z) ∧
        t = { s with v := t.v } ∧ ∀ a, t.byteAt a = s.byteAt a)

/-- Cxkk: the tick's host byte under the mask (the spec's decision D5, the latch of log entry 8). -/
def Obligations.RandomIsMasked : Prop :=
  ∀ (x : Nibble) (kk : Byte) (s : State), ∃ t, exec (.rnd x kk) s = .next t ∧
    (∀ b, (t.reg x).getLsbD b = (s.rand.getLsbD b && kk.getLsbD b)) ∧
    (∀ z, z ≠ x → t.reg z = s.reg z) ∧ t = { s with v := t.v } ∧ ∀ a, t.byteAt a = s.byteAt a

/-! ## Index register and memory (spec/42_index_memory.md) -/

/-- R150. -/
def Obligations.LoadsTheIndex : Prop :=
  ∀ (nnn : Address) (s : State), ∃ t, exec (.ldI nnn) s = .next t ∧ t.i.toNat = nnn.toNat ∧
    t = { s with i := t.i } ∧ ∀ a, t.byteAt a = s.byteAt a

/-- Fx1E wraps at 16 bits and writes no flag (the spec's decision D13); Fx29 is Vx times 5, not masked
(the spec's decision D27). -/
def Obligations.IndexArithmetic : Prop :=
  ∀ (x : Nibble) (s : State),
    (∃ t, exec (.addIVx x) s = .next t ∧ t.i.toNat = (s.i.toNat + (s.reg x).toNat) % 65536 ∧
      t = { s with i := t.i } ∧ ∀ a, t.byteAt a = s.byteAt a) ∧
    (∃ t, exec (.ldFVx x) s = .next t ∧ t.i.toNat = (s.reg x).toNat * 5 ∧
      t = { s with i := t.i } ∧ ∀ a, t.byteAt a = s.byteAt a)

/-- Fx33 stores the three decimal digits at I, I + 1, I + 2 and nothing else, or faults at the first of
them outside memory (the address reported is the spec's decision D11, log entry 12). -/
def Obligations.BcdStoresThreeDigits : Prop :=
  ∀ (x : Nibble) (s : State),
    (s.i.toNat < 4094 → Memory.wf s.cfg s.mem = true → ∃ t, exec (.ldBVx x) s = .next t ∧
      (t.byteAt (dataAddress s 0)).toNat = (s.reg x).toNat / 100 ∧
      (t.byteAt (dataAddress s 1)).toNat = (s.reg x).toNat / 10 % 10 ∧
      (t.byteAt (dataAddress s 2)).toNat = (s.reg x).toNat % 10 ∧
      (∀ a, a < dataAddress s 0 ∨ dataAddress s 2 < a → t.byteAt a = s.byteAt a) ∧
      t = { s with mem := t.mem }) ∧
    (4094 ≤ s.i.toNat → exec (.ldBVx x) s = .fault (.addressOutOfRange (max s.i.toNat 4096) 4096))

/-- Fx55 stores V0..Vx at I..I + x and nothing else, I unchanged (the spec's decision D26), or faults
at the first byte outside memory (the spec's decision D11). -/
def Obligations.StoresTheRegisters : Prop :=
  ∀ (x : Nibble) (s : State),
    (dataAddress s x.toNat < 4096 → Memory.wf s.cfg s.mem = true → ∃ t, exec (.ldMemVx x) s = .next t ∧
      (∀ z : Nibble, z.toNat ≤ x.toNat → t.byteAt (dataAddress s z.toNat) = s.reg z) ∧
      (∀ a, a < dataAddress s 0 ∨ dataAddress s x.toNat < a → t.byteAt a = s.byteAt a) ∧
      t = { s with mem := t.mem }) ∧
    (4096 ≤ dataAddress s x.toNat →
      exec (.ldMemVx x) s = .fault (.addressOutOfRange (max s.i.toNat 4096) 4096))

/-- Fx65 loads V0..Vx from I..I + x and changes nothing else, I unchanged (the spec's decision D26), or
faults at the first byte outside memory (the spec's decision D11). -/
def Obligations.LoadsTheRegisters : Prop :=
  ∀ (x : Nibble) (s : State),
    (dataAddress s x.toNat < 4096 → ∃ t, exec (.ldVxMem x) s = .next t ∧
      (∀ z : Nibble, z.toNat ≤ x.toNat → t.reg z = s.byteAt (dataAddress s z.toNat)) ∧
      (∀ z : Nibble, x.toNat < z.toNat → t.reg z = s.reg z) ∧
      t = { s with v := t.v } ∧ ∀ a, t.byteAt a = s.byteAt a) ∧
    (4096 ≤ dataAddress s x.toNat →
      exec (.ldVxMem x) s = .fault (.addressOutOfRange (max s.i.toNat 4096) 4096))

/-- Fx55 and then Fx65 with the same I and x gives V0..Vx back, whatever the registers held between
(the spec's decision D26). -/
def Obligations.StoreThenLoadRestores : Prop :=
  ∀ (x : Nibble) (s t : State) (w : Vector Byte 16), Memory.wf s.cfg s.mem = true →
    exec (.ldMemVx x) s = .next t →
    ∃ u, exec (.ldVxMem x) { t with v := w } = .next u ∧
      ∀ z : Nibble, z.toNat ≤ x.toNat → u.reg z = s.reg z

/-- What Fx55 stored is what the next fetch reads (the spec's decision D16). -/
def Obligations.StoredBytesAreFetched : Prop :=
  ∀ (x k l : Nibble) (s t : State), Memory.wf s.cfg s.mem = true → exec (.ldMemVx x) s = .next t →
    l.toNat = k.toNat + 1 → l.toNat ≤ x.toNat → t.pc.toNat = dataAddress s k.toNat →
    ∃ op, fetch t = .ok op ∧ op.toNat = (s.reg k).toNat * 256 + (s.reg l).toNat

/-! ## Display (spec/43_display.md) -/

/-- R172: CLS clears every pixel and nothing else. -/
def Obligations.ClearBlanksTheFramebuffer : Prop :=
  ∀ s : State, ∃ t, exec .cls s = .next t ∧ (∀ c r, t.pixel c r = false) ∧
    t = { s with fb := t.fb } ∧ ∀ a, t.byteAt a = s.byteAt a

/-- Dxyn: bit 7 - col of the byte at I + row flips pixel ((Vx + col) mod 64, (Vy + row) mod 32), no
other pixel changes, and VF tells whether a set pixel was flipped; the origin is read before VF is
reset (the spec's decision D8). -/
def Obligations.DrawFlipsTheSprite : Prop :=
  ∀ (x y : Nibble) (n : Nat) (s : State) (bit : Nat → Nat → Bool) (column : Nat → Fin 64) (line : Nat → Fin 32),
    n < 16 → n = 0 ∨ dataAddress s n ≤ 4096 →
    (∀ row col, bit row col = (s.byteAt (dataAddress s row)).toNat.testBit (7 - col)) →
    (∀ col, (column col).val = ((s.reg x).toNat + col) % 64) →
    (∀ row, (line row).val = ((s.reg y).toNat + row) % 32) →
    ∃ t, exec (.drw x y n) s = .next t ∧
      (∀ row col, row < n → col < 8 →
        t.pixel (column col) (line row) = (s.pixel (column col) (line row) != bit row col)) ∧
      (∀ c r, (∀ row col, row < n → col < 8 → ¬ (column col = c ∧ line row = r)) →
        t.pixel c r = s.pixel c r) ∧
      ((∃ row col, row < n ∧ col < 8 ∧ bit row col = true ∧ s.pixel (column col) (line row) = true) →
        t.reg 0xF = 1) ∧
      ((¬ ∃ row col, row < n ∧ col < 8 ∧ bit row col = true ∧ s.pixel (column col) (line row) = true) →
        t.reg 0xF = 0) ∧
      (∀ z, z ≠ 0xF → t.reg z = s.reg z) ∧ t = { s with v := t.v, fb := t.fb } ∧
      ∀ a, t.byteAt a = s.byteAt a

/-- Dxyn whose sprite leaves memory faults at its first byte outside (the spec's decision D11). -/
def Obligations.DrawFaultsOutsideMemory : Prop :=
  ∀ (x y : Nibble) (n : Nat) (s : State), 0 < n → n < 16 → 4096 < dataAddress s n →
    exec (.drw x y n) s = .fault (.addressOutOfRange (max s.i.toNat 4096) 4096)

/-- Drawing the same sprite twice at one origin restores the framebuffer; the second draw collides
exactly when some set bit lands on a pixel that was clear before the first draw (log entry 21: the
spec's derived sentence about the second draw's VF leaves out the pixels that were already set). -/
def Obligations.DrawTwiceRestores : Prop :=
  ∀ (x y x' y' : Nibble) (n : Nat) (s t : State) (clear : Prop), n < 16 → exec (.drw x y n) s = .next t →
    t.reg x' = s.reg x → t.reg y' = s.reg y →
    (clear ↔ ∃ (row col : Nat) (c : Fin 64) (r : Fin 32), row < n ∧ col < 8 ∧
      (s.byteAt (dataAddress s row)).toNat.testBit (7 - col) = true ∧
      c.val = ((s.reg x).toNat + col) % 64 ∧ r.val = ((s.reg y).toNat + row) % 32 ∧
      s.pixel c r = false) →
    ∃ u, exec (.drw x' y' n) t = .next u ∧ (∀ c r, u.pixel c r = s.pixel c r) ∧
      (clear → u.reg 0xF = 1) ∧ (¬ clear → u.reg 0xF = 0)

/-- A draw after CLS leaves VF = 0 and sets exactly the pixels under the sprite's set bits, as on a
freshly reset framebuffer (derived in the spec). -/
def Obligations.DrawAfterClearDoesNotCollide : Prop :=
  ∀ (x y : Nibble) (n : Nat) (s t u : State), n < 16 → exec .cls s = .next t → exec (.drw x y n) t = .next u →
    u.reg 0xF = 0 ∧
    ∀ c r, u.pixel c r = true ↔ ∃ row col, row < n ∧ col < 8 ∧
      (s.byteAt (dataAddress s row)).toNat.testBit (7 - col) = true ∧
      c.val = ((s.reg x).toNat + col) % 64 ∧ r.val = ((s.reg y).toNat + row) % 32

/-! ## Keys and timers (spec/44_input_timers.md) -/

/-- R190, R191: the skips on a key, and their fault on a code above 0xF. -/
def Obligations.SkipsOnAKey : Prop :=
  ∀ (x : Nibble) (s : State),
    (∀ h : (s.reg x).toNat < 16,
      (∃ t, exec (.skp x) s = .next t ∧
        t.pc.toNat = (if s.key[(s.reg x).toNat] = true then (s.pc.toNat + 2) % 65536 else s.pc.toNat) ∧
        t = { s with pc := t.pc } ∧ ∀ a, t.byteAt a = s.byteAt a) ∧
      (∃ t, exec (.sknp x) s = .next t ∧
        t.pc.toNat = (if s.key[(s.reg x).toNat] = true then s.pc.toNat else (s.pc.toNat + 2) % 65536) ∧
        t = { s with pc := t.pc } ∧ ∀ a, t.byteAt a = s.byteAt a)) ∧
    (16 ≤ (s.reg x).toNat →
      exec (.skp x) s = .fault (.invalidKeyCode (s.reg x)) ∧
      exec (.sknp x) s = .fault (.invalidKeyCode (s.reg x)))

/-- Fx0A only starts the wait (the spec's decision D18). -/
def Obligations.KeyWaitStarts : Prop :=
  ∀ (x : Nibble) (s : State), ∃ t, exec (.ldVxK x) s = .next t ∧ t.run = .awaitingKey x ∧
    t = { s with run := t.run } ∧ ∀ a, t.byteAt a = s.byteAt a

/-- R193. -/
def Obligations.ReadsTheDelayTimer : Prop :=
  ∀ (x : Nibble) (s : State), ∃ t, exec (.ldVxDt x) s = .next t ∧ t.reg x = s.dt ∧
    (∀ z, z ≠ x → t.reg z = s.reg z) ∧ t = { s with v := t.v } ∧ ∀ a, t.byteAt a = s.byteAt a

/-- Fx15 and Fx18 set their timer and no accumulator (the spec's decision D22). -/
def Obligations.SetsTheTimers : Prop :=
  ∀ (x : Nibble) (s : State),
    (∃ t, exec (.ldDtVx x) s = .next t ∧ t.dt = s.reg x ∧ t = { s with dt := t.dt } ∧
      ∀ a, t.byteAt a = s.byteAt a) ∧
    (∃ t, exec (.ldStVx x) s = .next t ∧ t.st = s.reg x ∧ t = { s with st := t.st } ∧
      ∀ a, t.byteAt a = s.byteAt a)

/-! ## Whole-machine rules (spec/10_state.md) -/

/-- R30: Push and Pop, and CALL and RET are their only users. -/
def Obligations.StackChangesOnlyByPushAndPop : Prop :=
  (∀ (s : State) (w : Word),
    (s.sp.val = 16 → s.push w = .error .stackOverflow) ∧
    (∀ h : s.sp.val < 16, ∃ t, s.push w = .ok t ∧ t.sp.val = s.sp.val + 1 ∧ t.stack[s.sp.val] = w ∧
      (∀ j : Fin 16, j.val ≠ s.sp.val → t.stack[j] = s.stack[j]) ∧
      t = { s with stack := t.stack, sp := t.sp }) ∧
    (s.sp.val = 0 → s.pop = .error .stackUnderflow) ∧
    (∀ h : 0 < s.sp.val, ∃ t, s.pop = .ok (s.stack[s.sp.val - 1], t) ∧ t.sp.val = s.sp.val - 1 ∧
      t = { s with sp := t.sp })) ∧
  (∀ (i : Instr) (s t : State), exec i s = .next t → usesStack i = false →
    t.stack = s.stack ∧ t.sp = s.sp)

/-- Each instruction writes only the state the spec gives it: registers by name or VF as a flag,
I, memory, PC, framebuffer and run state by their own instructions, and no instruction writes the key
flags, the quit flag, an accumulator or an output port (summarised from the instruction rules). -/
def Obligations.InstructionsWriteOnlyTheirState : Prop :=
  ∀ (i : Instr) (s t : State), exec i s = .next t →
    (∀ z, writesReg i z = false → z ≠ 0xF ∨ writesFlag i = false → t.reg z = s.reg z) ∧
    (writesI i = false → t.i = s.i) ∧
    (writesMem i = false → ∀ a, t.byteAt a = s.byteAt a) ∧
    (writesPc i = false → t.pc = s.pc) ∧
    (writesFb i = false → ∀ c r, t.pixel c r = s.pixel c r) ∧
    (writesRun i = false → t.run = s.run) ∧
    t.key = s.key ∧ t.quit = s.quit ∧ t.accDT = s.accDT ∧ t.accST = s.accST ∧
    t.fbOut = s.fbOut ∧ t.beep = s.beep ∧ t.rand = s.rand

/-- DT is set by Fx15 alone, ST by Fx18 alone, and no instruction reads ST: another ST gives the same
outcome with that ST in it. -/
def Obligations.TimersAreSetByTheirInstructionsAlone : Prop :=
  ∀ (i : Instr) (s : State),
    (∀ t, exec i s = .next t → (∀ x, i ≠ .ldDtVx x) → t.dt = s.dt) ∧
    (∀ t, exec i s = .next t → (∀ x, i ≠ .ldStVx x) → t.st = s.st) ∧
    (∀ b : Byte, (∀ x, i ≠ .ldStVx x) →
      exec i (s.setSt b) = afterNext (exec i s) (fun t => t.setSt b)) ∧
    (∀ (b : Byte) (x : Nibble), exec (.ldStVx x) (s.setSt b) = exec (.ldStVx x) s)

/-- Stack entries at or above SP are unobservable: with other values there, an instruction gives the
same outcome but for such entries (derived in the spec). -/
def Obligations.StaleStackEntriesAreUnobservable : Prop :=
  ∀ (i : Instr) (s : State) (w : Vector Word 16), (∀ j : Fin 16, j.val < s.sp.val → w[j] = s.stack[j]) →
    (∀ t, exec i s = .next t → ∃ t', exec i { s with stack := w } = .next t' ∧
      t' = { t with stack := t'.stack } ∧ ∀ j : Fin 16, j.val < t.sp.val → t'.stack[j] = t.stack[j]) ∧
    (∀ f, exec i s = .fault f → exec i { s with stack := w } = .fault f)
end

