-- ==== Sys2Proof/Laws/Decode.lean ====
section
/-! SUPPORT. The opcode fields of a word built from its fields, and back (R83). -/

namespace Sys2Proof

/-- The value of an opcode from its four nibbles (R83). -/
theorem wordXyn_toNat (o x y n : Nibble) :
    (wordXyn o x y n).toNat = o.toNat * 4096 + x.toNat * 256 + y.toNat * 16 + n.toNat := by
  have ho := o.isLt; have hx := x.isLt; have hy := y.isLt; have hn := n.isLt
  simp only [wordXyn, BitVec.toNat_append, Nat.shiftLeft_eq]
  rw [← Nat.shiftLeft_eq, ← Nat.shiftLeft_eq, ← Nat.shiftLeft_eq,
    ← Nat.shiftLeft_add_eq_or_of_lt hx, ← Nat.shiftLeft_add_eq_or_of_lt hy, ← Nat.shiftLeft_add_eq_or_of_lt hn]
  simp only [Nat.shiftLeft_eq]
  omega

theorem wordXkk_toNat (o x : Nibble) (kk : Byte) :
    (wordXkk o x kk).toNat = o.toNat * 4096 + x.toNat * 256 + kk.toNat := by
  have ho := o.isLt; have hx := x.isLt; have hk := kk.isLt
  simp only [wordXkk, BitVec.toNat_append]
  rw [← Nat.shiftLeft_add_eq_or_of_lt hx, ← Nat.shiftLeft_add_eq_or_of_lt hk]
  simp only [Nat.shiftLeft_eq]
  omega

theorem wordNnn_toNat (o : Nibble) (nnn : Address) :
    (wordNnn o nnn).toNat = o.toNat * 4096 + nnn.toNat := by
  have hn := nnn.isLt
  simp only [wordNnn, BitVec.toNat_append]
  rw [← Nat.shiftLeft_add_eq_or_of_lt hn]
  simp only [Nat.shiftLeft_eq]

theorem fieldO_toNat (op : Word) : (fieldO op).toNat = op.toNat / 4096 := by
  have := op.isLt
  simp only [fieldO, BitVec.extractLsb'_toNat, Nat.shiftRight_eq_div_pow]; omega

theorem fieldX_toNat (op : Word) : (fieldX op).toNat = op.toNat / 256 % 16 := by
  simp only [fieldX, BitVec.extractLsb'_toNat, Nat.shiftRight_eq_div_pow]

theorem fieldY_toNat (op : Word) : (fieldY op).toNat = op.toNat / 16 % 16 := by
  simp only [fieldY, BitVec.extractLsb'_toNat, Nat.shiftRight_eq_div_pow]

theorem fieldN_toNat (op : Word) : (fieldN op).toNat = op.toNat % 16 := by
  simp only [fieldN, BitVec.extractLsb'_toNat, Nat.shiftRight_eq_div_pow]; omega

theorem fieldKk_toNat (op : Word) : (fieldKk op).toNat = op.toNat % 256 := by
  simp only [fieldKk, BitVec.extractLsb'_toNat, Nat.shiftRight_eq_div_pow]; omega

theorem fieldNnn_toNat (op : Word) : (fieldNnn op).toNat = op.toNat % 4096 := by
  simp only [fieldNnn, BitVec.extractLsb'_toNat, Nat.shiftRight_eq_div_pow]; omega

theorem joinBytes_toNat (hi lo : Byte) : (joinBytes hi lo).toNat = hi.toNat * 256 + lo.toNat := by
  have hh := hi.isLt; have hl := lo.isLt
  simp only [joinBytes, BitVec.toNat_append]
  rw [← Nat.shiftLeft_add_eq_or_of_lt hl]
  simp only [Nat.shiftLeft_eq]

@[simp] theorem joinBytes_high_low (op : Word) : joinBytes (highByte op) (lowByte op) = op := by
  apply BitVec.eq_of_toNat_eq
  have := op.isLt
  rw [joinBytes_toNat]
  simp only [highByte, lowByte, BitVec.extractLsb'_toNat, Nat.shiftRight_eq_div_pow]; omega

/-! ## Fields of a built word -/

section
variable (o x y n : Nibble) (kk : Byte) (nnn : Address)

@[simp] theorem fieldO_wordXyn : fieldO (wordXyn o x y n) = o := by
  apply BitVec.eq_of_toNat_eq; rw [fieldO_toNat, wordXyn_toNat]
  have := x.isLt; have := y.isLt; have := n.isLt; omega
@[simp] theorem fieldX_wordXyn : fieldX (wordXyn o x y n) = x := by
  apply BitVec.eq_of_toNat_eq; rw [fieldX_toNat, wordXyn_toNat]
  have := x.isLt; have := y.isLt; have := n.isLt; omega
@[simp] theorem fieldY_wordXyn : fieldY (wordXyn o x y n) = y := by
  apply BitVec.eq_of_toNat_eq; rw [fieldY_toNat, wordXyn_toNat]
  have := x.isLt; have := y.isLt; have := n.isLt; omega
@[simp] theorem fieldN_wordXyn : fieldN (wordXyn o x y n) = n := by
  apply BitVec.eq_of_toNat_eq; rw [fieldN_toNat, wordXyn_toNat]
  have := x.isLt; have := y.isLt; have := n.isLt; omega
@[simp] theorem fieldO_wordXkk : fieldO (wordXkk o x kk) = o := by
  apply BitVec.eq_of_toNat_eq; rw [fieldO_toNat, wordXkk_toNat]
  have := x.isLt; have := kk.isLt; omega
@[simp] theorem fieldX_wordXkk : fieldX (wordXkk o x kk) = x := by
  apply BitVec.eq_of_toNat_eq; rw [fieldX_toNat, wordXkk_toNat]
  have := x.isLt; have := kk.isLt; omega
@[simp] theorem fieldKk_wordXkk : fieldKk (wordXkk o x kk) = kk := by
  apply BitVec.eq_of_toNat_eq; rw [fieldKk_toNat, wordXkk_toNat]
  have := x.isLt; have := kk.isLt; omega
@[simp] theorem fieldO_wordNnn : fieldO (wordNnn o nnn) = o := by
  apply BitVec.eq_of_toNat_eq; rw [fieldO_toNat, wordNnn_toNat]
  have := nnn.isLt; omega
@[simp] theorem fieldNnn_wordNnn : fieldNnn (wordNnn o nnn) = nnn := by
  apply BitVec.eq_of_toNat_eq; rw [fieldNnn_toNat, wordNnn_toNat]
  have := nnn.isLt; omega
end

/-! ## A word from its fields (R83) -/

theorem wordXyn_fields (op : Word) : wordXyn (fieldO op) (fieldX op) (fieldY op) (fieldN op) = op := by
  apply BitVec.eq_of_toNat_eq
  rw [wordXyn_toNat, fieldO_toNat, fieldX_toNat, fieldY_toNat, fieldN_toNat]; omega

theorem wordXkk_fields (op : Word) : wordXkk (fieldO op) (fieldX op) (fieldKk op) = op := by
  apply BitVec.eq_of_toNat_eq
  rw [wordXkk_toNat, fieldO_toNat, fieldX_toNat, fieldKk_toNat]; omega

theorem wordNnn_fields (op : Word) : wordNnn (fieldO op) (fieldNnn op) = op := by
  apply BitVec.eq_of_toNat_eq
  rw [wordNnn_toNat, fieldO_toNat, fieldNnn_toNat]; omega

/-! ## Masks (R87) -/

theorem wordXyn_inj {o x y n o' x' y' n' : Nibble} :
    wordXyn o x y n = wordXyn o' x' y' n' ↔ o = o' ∧ x = x' ∧ y = y' ∧ n = n' := by
  constructor
  · intro h
    exact ⟨by simpa using congrArg fieldO h, by simpa using congrArg fieldX h,
      by simpa using congrArg fieldY h, by simpa using congrArg fieldN h⟩
  · rintro ⟨rfl, rfl, rfl, rfl⟩; rfl

theorem wordXyn_and (o x y n o' x' y' n' : Nibble) :
    wordXyn o x y n &&& wordXyn o' x' y' n' = wordXyn (o &&& o') (x &&& x') (y &&& y') (n &&& n') := by
  simp only [wordXyn]
  rw [BitVec.and_append, BitVec.and_append, BitVec.and_append]

/-- Matching a mask is matching it nibble by nibble. -/
theorem and_eq_iff (op : Word) (o x y n o' x' y' n' : Nibble) :
    op &&& wordXyn o' x' y' n' = wordXyn o x y n ↔
      fieldO op &&& o' = o ∧ fieldX op &&& x' = x ∧ fieldY op &&& y' = y ∧ fieldN op &&& n' = n := by
  conv => lhs; lhs; lhs; rw [← wordXyn_fields op]
  rw [wordXyn_and, wordXyn_inj]

end Sys2Proof
end

