-- ==== Sys2Proof/Laws/State.lean ====
section
/-! SUPPORT. What each named update of the state does to each field, one lemma a field, and to the
views of the state (register, byte of memory, pixel). -/

namespace Sys2Proof.Machine

variable (s : State)

/-! ### setReg -/

@[simp] theorem setReg_cfg (x : Nibble) (b : Byte) : (s.setReg x b).cfg = s.cfg := rfl
@[simp] theorem setReg_mem (x : Nibble) (b : Byte) : (s.setReg x b).mem = s.mem := rfl
@[simp] theorem setReg_v (x : Nibble) (b : Byte) : (s.setReg x b).v = s.v.set x.toNat b x.isLt := rfl
@[simp] theorem setReg_i (x : Nibble) (b : Byte) : (s.setReg x b).i = s.i := rfl
@[simp] theorem setReg_pc (x : Nibble) (b : Byte) : (s.setReg x b).pc = s.pc := rfl
@[simp] theorem setReg_stack (x : Nibble) (b : Byte) : (s.setReg x b).stack = s.stack := rfl
@[simp] theorem setReg_sp (x : Nibble) (b : Byte) : (s.setReg x b).sp = s.sp := rfl
@[simp] theorem setReg_dt (x : Nibble) (b : Byte) : (s.setReg x b).dt = s.dt := rfl
@[simp] theorem setReg_st (x : Nibble) (b : Byte) : (s.setReg x b).st = s.st := rfl
@[simp] theorem setReg_accDT (x : Nibble) (b : Byte) : (s.setReg x b).accDT = s.accDT := rfl
@[simp] theorem setReg_accST (x : Nibble) (b : Byte) : (s.setReg x b).accST = s.accST := rfl
@[simp] theorem setReg_fb (x : Nibble) (b : Byte) : (s.setReg x b).fb = s.fb := rfl
@[simp] theorem setReg_key (x : Nibble) (b : Byte) : (s.setReg x b).key = s.key := rfl
@[simp] theorem setReg_quit (x : Nibble) (b : Byte) : (s.setReg x b).quit = s.quit := rfl
@[simp] theorem setReg_run (x : Nibble) (b : Byte) : (s.setReg x b).run = s.run := rfl
@[simp] theorem setReg_fbOut (x : Nibble) (b : Byte) : (s.setReg x b).fbOut = s.fbOut := rfl
@[simp] theorem setReg_beep (x : Nibble) (b : Byte) : (s.setReg x b).beep = s.beep := rfl
@[simp] theorem setReg_rand (x : Nibble) (b : Byte) : (s.setReg x b).rand = s.rand := rfl
@[simp] theorem setReg_inputs (x : Nibble) (b : Byte) : (s.setReg x b).inputs = s.inputs := rfl
@[simp] theorem setReg_tick (x : Nibble) (b : Byte) : (s.setReg x b).tick = s.tick := rfl
@[simp] theorem setReg_byteAt (x : Nibble) (b : Byte) (a : Nat) : (s.setReg x b).byteAt a = s.byteAt a := rfl
@[simp] theorem setReg_pixel (x : Nibble) (b : Byte) (c : Fin 64) (r : Fin 32) : (s.setReg x b).pixel c r = s.pixel c r := rfl

/-! ### setI -/

@[simp] theorem setI_cfg (w : Word) : (s.setI w).cfg = s.cfg := rfl
@[simp] theorem setI_mem (w : Word) : (s.setI w).mem = s.mem := rfl
@[simp] theorem setI_v (w : Word) : (s.setI w).v = s.v := rfl
@[simp] theorem setI_i (w : Word) : (s.setI w).i = w := rfl
@[simp] theorem setI_pc (w : Word) : (s.setI w).pc = s.pc := rfl
@[simp] theorem setI_stack (w : Word) : (s.setI w).stack = s.stack := rfl
@[simp] theorem setI_sp (w : Word) : (s.setI w).sp = s.sp := rfl
@[simp] theorem setI_dt (w : Word) : (s.setI w).dt = s.dt := rfl
@[simp] theorem setI_st (w : Word) : (s.setI w).st = s.st := rfl
@[simp] theorem setI_accDT (w : Word) : (s.setI w).accDT = s.accDT := rfl
@[simp] theorem setI_accST (w : Word) : (s.setI w).accST = s.accST := rfl
@[simp] theorem setI_fb (w : Word) : (s.setI w).fb = s.fb := rfl
@[simp] theorem setI_key (w : Word) : (s.setI w).key = s.key := rfl
@[simp] theorem setI_quit (w : Word) : (s.setI w).quit = s.quit := rfl
@[simp] theorem setI_run (w : Word) : (s.setI w).run = s.run := rfl
@[simp] theorem setI_fbOut (w : Word) : (s.setI w).fbOut = s.fbOut := rfl
@[simp] theorem setI_beep (w : Word) : (s.setI w).beep = s.beep := rfl
@[simp] theorem setI_rand (w : Word) : (s.setI w).rand = s.rand := rfl
@[simp] theorem setI_inputs (w : Word) : (s.setI w).inputs = s.inputs := rfl
@[simp] theorem setI_tick (w : Word) : (s.setI w).tick = s.tick := rfl
@[simp] theorem setI_reg (w : Word) (z : Nibble) : (s.setI w).reg z = s.reg z := rfl
@[simp] theorem setI_byteAt (w : Word) (a : Nat) : (s.setI w).byteAt a = s.byteAt a := rfl
@[simp] theorem setI_pixel (w : Word) (c : Fin 64) (r : Fin 32) : (s.setI w).pixel c r = s.pixel c r := rfl

/-! ### setPc -/

@[simp] theorem setPc_cfg (w : Word) : (s.setPc w).cfg = s.cfg := rfl
@[simp] theorem setPc_mem (w : Word) : (s.setPc w).mem = s.mem := rfl
@[simp] theorem setPc_v (w : Word) : (s.setPc w).v = s.v := rfl
@[simp] theorem setPc_i (w : Word) : (s.setPc w).i = s.i := rfl
@[simp] theorem setPc_pc (w : Word) : (s.setPc w).pc = w := rfl
@[simp] theorem setPc_stack (w : Word) : (s.setPc w).stack = s.stack := rfl
@[simp] theorem setPc_sp (w : Word) : (s.setPc w).sp = s.sp := rfl
@[simp] theorem setPc_dt (w : Word) : (s.setPc w).dt = s.dt := rfl
@[simp] theorem setPc_st (w : Word) : (s.setPc w).st = s.st := rfl
@[simp] theorem setPc_accDT (w : Word) : (s.setPc w).accDT = s.accDT := rfl
@[simp] theorem setPc_accST (w : Word) : (s.setPc w).accST = s.accST := rfl
@[simp] theorem setPc_fb (w : Word) : (s.setPc w).fb = s.fb := rfl
@[simp] theorem setPc_key (w : Word) : (s.setPc w).key = s.key := rfl
@[simp] theorem setPc_quit (w : Word) : (s.setPc w).quit = s.quit := rfl
@[simp] theorem setPc_run (w : Word) : (s.setPc w).run = s.run := rfl
@[simp] theorem setPc_fbOut (w : Word) : (s.setPc w).fbOut = s.fbOut := rfl
@[simp] theorem setPc_beep (w : Word) : (s.setPc w).beep = s.beep := rfl
@[simp] theorem setPc_rand (w : Word) : (s.setPc w).rand = s.rand := rfl
@[simp] theorem setPc_inputs (w : Word) : (s.setPc w).inputs = s.inputs := rfl
@[simp] theorem setPc_tick (w : Word) : (s.setPc w).tick = s.tick := rfl
@[simp] theorem setPc_reg (w : Word) (z : Nibble) : (s.setPc w).reg z = s.reg z := rfl
@[simp] theorem setPc_byteAt (w : Word) (a : Nat) : (s.setPc w).byteAt a = s.byteAt a := rfl
@[simp] theorem setPc_pixel (w : Word) (c : Fin 64) (r : Fin 32) : (s.setPc w).pixel c r = s.pixel c r := rfl

/-! ### setDt -/

@[simp] theorem setDt_cfg (b : Byte) : (s.setDt b).cfg = s.cfg := rfl
@[simp] theorem setDt_mem (b : Byte) : (s.setDt b).mem = s.mem := rfl
@[simp] theorem setDt_v (b : Byte) : (s.setDt b).v = s.v := rfl
@[simp] theorem setDt_i (b : Byte) : (s.setDt b).i = s.i := rfl
@[simp] theorem setDt_pc (b : Byte) : (s.setDt b).pc = s.pc := rfl
@[simp] theorem setDt_stack (b : Byte) : (s.setDt b).stack = s.stack := rfl
@[simp] theorem setDt_sp (b : Byte) : (s.setDt b).sp = s.sp := rfl
@[simp] theorem setDt_dt (b : Byte) : (s.setDt b).dt = b := rfl
@[simp] theorem setDt_st (b : Byte) : (s.setDt b).st = s.st := rfl
@[simp] theorem setDt_accDT (b : Byte) : (s.setDt b).accDT = s.accDT := rfl
@[simp] theorem setDt_accST (b : Byte) : (s.setDt b).accST = s.accST := rfl
@[simp] theorem setDt_fb (b : Byte) : (s.setDt b).fb = s.fb := rfl
@[simp] theorem setDt_key (b : Byte) : (s.setDt b).key = s.key := rfl
@[simp] theorem setDt_quit (b : Byte) : (s.setDt b).quit = s.quit := rfl
@[simp] theorem setDt_run (b : Byte) : (s.setDt b).run = s.run := rfl
@[simp] theorem setDt_fbOut (b : Byte) : (s.setDt b).fbOut = s.fbOut := rfl
@[simp] theorem setDt_beep (b : Byte) : (s.setDt b).beep = s.beep := rfl
@[simp] theorem setDt_rand (b : Byte) : (s.setDt b).rand = s.rand := rfl
@[simp] theorem setDt_inputs (b : Byte) : (s.setDt b).inputs = s.inputs := rfl
@[simp] theorem setDt_tick (b : Byte) : (s.setDt b).tick = s.tick := rfl
@[simp] theorem setDt_reg (b : Byte) (z : Nibble) : (s.setDt b).reg z = s.reg z := rfl
@[simp] theorem setDt_byteAt (b : Byte) (a : Nat) : (s.setDt b).byteAt a = s.byteAt a := rfl
@[simp] theorem setDt_pixel (b : Byte) (c : Fin 64) (r : Fin 32) : (s.setDt b).pixel c r = s.pixel c r := rfl

/-! ### setSt -/

@[simp] theorem setSt_cfg (b : Byte) : (s.setSt b).cfg = s.cfg := rfl
@[simp] theorem setSt_mem (b : Byte) : (s.setSt b).mem = s.mem := rfl
@[simp] theorem setSt_v (b : Byte) : (s.setSt b).v = s.v := rfl
@[simp] theorem setSt_i (b : Byte) : (s.setSt b).i = s.i := rfl
@[simp] theorem setSt_pc (b : Byte) : (s.setSt b).pc = s.pc := rfl
@[simp] theorem setSt_stack (b : Byte) : (s.setSt b).stack = s.stack := rfl
@[simp] theorem setSt_sp (b : Byte) : (s.setSt b).sp = s.sp := rfl
@[simp] theorem setSt_dt (b : Byte) : (s.setSt b).dt = s.dt := rfl
@[simp] theorem setSt_st (b : Byte) : (s.setSt b).st = b := rfl
@[simp] theorem setSt_accDT (b : Byte) : (s.setSt b).accDT = s.accDT := rfl
@[simp] theorem setSt_accST (b : Byte) : (s.setSt b).accST = s.accST := rfl
@[simp] theorem setSt_fb (b : Byte) : (s.setSt b).fb = s.fb := rfl
@[simp] theorem setSt_key (b : Byte) : (s.setSt b).key = s.key := rfl
@[simp] theorem setSt_quit (b : Byte) : (s.setSt b).quit = s.quit := rfl
@[simp] theorem setSt_run (b : Byte) : (s.setSt b).run = s.run := rfl
@[simp] theorem setSt_fbOut (b : Byte) : (s.setSt b).fbOut = s.fbOut := rfl
@[simp] theorem setSt_beep (b : Byte) : (s.setSt b).beep = s.beep := rfl
@[simp] theorem setSt_rand (b : Byte) : (s.setSt b).rand = s.rand := rfl
@[simp] theorem setSt_inputs (b : Byte) : (s.setSt b).inputs = s.inputs := rfl
@[simp] theorem setSt_tick (b : Byte) : (s.setSt b).tick = s.tick := rfl
@[simp] theorem setSt_reg (b : Byte) (z : Nibble) : (s.setSt b).reg z = s.reg z := rfl
@[simp] theorem setSt_byteAt (b : Byte) (a : Nat) : (s.setSt b).byteAt a = s.byteAt a := rfl
@[simp] theorem setSt_pixel (b : Byte) (c : Fin 64) (r : Fin 32) : (s.setSt b).pixel c r = s.pixel c r := rfl

/-! ### setRun -/

@[simp] theorem setRun_cfg (r : RunState) : (s.setRun r).cfg = s.cfg := rfl
@[simp] theorem setRun_mem (r : RunState) : (s.setRun r).mem = s.mem := rfl
@[simp] theorem setRun_v (r : RunState) : (s.setRun r).v = s.v := rfl
@[simp] theorem setRun_i (r : RunState) : (s.setRun r).i = s.i := rfl
@[simp] theorem setRun_pc (r : RunState) : (s.setRun r).pc = s.pc := rfl
@[simp] theorem setRun_stack (r : RunState) : (s.setRun r).stack = s.stack := rfl
@[simp] theorem setRun_sp (r : RunState) : (s.setRun r).sp = s.sp := rfl
@[simp] theorem setRun_dt (r : RunState) : (s.setRun r).dt = s.dt := rfl
@[simp] theorem setRun_st (r : RunState) : (s.setRun r).st = s.st := rfl
@[simp] theorem setRun_accDT (r : RunState) : (s.setRun r).accDT = s.accDT := rfl
@[simp] theorem setRun_accST (r : RunState) : (s.setRun r).accST = s.accST := rfl
@[simp] theorem setRun_fb (r : RunState) : (s.setRun r).fb = s.fb := rfl
@[simp] theorem setRun_key (r : RunState) : (s.setRun r).key = s.key := rfl
@[simp] theorem setRun_quit (r : RunState) : (s.setRun r).quit = s.quit := rfl
@[simp] theorem setRun_run (r : RunState) : (s.setRun r).run = r := rfl
@[simp] theorem setRun_fbOut (r : RunState) : (s.setRun r).fbOut = s.fbOut := rfl
@[simp] theorem setRun_beep (r : RunState) : (s.setRun r).beep = s.beep := rfl
@[simp] theorem setRun_rand (r : RunState) : (s.setRun r).rand = s.rand := rfl
@[simp] theorem setRun_inputs (r : RunState) : (s.setRun r).inputs = s.inputs := rfl
@[simp] theorem setRun_tick (r : RunState) : (s.setRun r).tick = s.tick := rfl
@[simp] theorem setRun_reg (r : RunState) (z : Nibble) : (s.setRun r).reg z = s.reg z := rfl
@[simp] theorem setRun_byteAt (r : RunState) (a : Nat) : (s.setRun r).byteAt a = s.byteAt a := rfl
@[simp] theorem setRun_pixel (r : RunState) (c : Fin 64) (row : Fin 32) : (s.setRun r).pixel c row = s.pixel c row := rfl

/-! ### clearFb -/

@[simp] theorem clearFb_cfg : (s.clearFb).cfg = s.cfg := rfl
@[simp] theorem clearFb_mem : (s.clearFb).mem = s.mem := rfl
@[simp] theorem clearFb_v : (s.clearFb).v = s.v := rfl
@[simp] theorem clearFb_i : (s.clearFb).i = s.i := rfl
@[simp] theorem clearFb_pc : (s.clearFb).pc = s.pc := rfl
@[simp] theorem clearFb_stack : (s.clearFb).stack = s.stack := rfl
@[simp] theorem clearFb_sp : (s.clearFb).sp = s.sp := rfl
@[simp] theorem clearFb_dt : (s.clearFb).dt = s.dt := rfl
@[simp] theorem clearFb_st : (s.clearFb).st = s.st := rfl
@[simp] theorem clearFb_accDT : (s.clearFb).accDT = s.accDT := rfl
@[simp] theorem clearFb_accST : (s.clearFb).accST = s.accST := rfl
@[simp] theorem clearFb_fb : (s.clearFb).fb = Framebuffer.blank := rfl
@[simp] theorem clearFb_key : (s.clearFb).key = s.key := rfl
@[simp] theorem clearFb_quit : (s.clearFb).quit = s.quit := rfl
@[simp] theorem clearFb_run : (s.clearFb).run = s.run := rfl
@[simp] theorem clearFb_fbOut : (s.clearFb).fbOut = s.fbOut := rfl
@[simp] theorem clearFb_beep : (s.clearFb).beep = s.beep := rfl
@[simp] theorem clearFb_rand : (s.clearFb).rand = s.rand := rfl
@[simp] theorem clearFb_inputs : (s.clearFb).inputs = s.inputs := rfl
@[simp] theorem clearFb_tick : (s.clearFb).tick = s.tick := rfl
@[simp] theorem clearFb_reg (z : Nibble) : (s.clearFb).reg z = s.reg z := rfl
@[simp] theorem clearFb_byteAt (a : Nat) : (s.clearFb).byteAt a = s.byteAt a := rfl

/-! ### advancePc -/

@[simp] theorem advancePc_cfg : (s.advancePc).cfg = s.cfg := rfl
@[simp] theorem advancePc_mem : (s.advancePc).mem = s.mem := rfl
@[simp] theorem advancePc_v : (s.advancePc).v = s.v := rfl
@[simp] theorem advancePc_i : (s.advancePc).i = s.i := rfl
@[simp] theorem advancePc_pc : (s.advancePc).pc = s.pc + 2 := rfl
@[simp] theorem advancePc_stack : (s.advancePc).stack = s.stack := rfl
@[simp] theorem advancePc_sp : (s.advancePc).sp = s.sp := rfl
@[simp] theorem advancePc_dt : (s.advancePc).dt = s.dt := rfl
@[simp] theorem advancePc_st : (s.advancePc).st = s.st := rfl
@[simp] theorem advancePc_accDT : (s.advancePc).accDT = s.accDT := rfl
@[simp] theorem advancePc_accST : (s.advancePc).accST = s.accST := rfl
@[simp] theorem advancePc_fb : (s.advancePc).fb = s.fb := rfl
@[simp] theorem advancePc_key : (s.advancePc).key = s.key := rfl
@[simp] theorem advancePc_quit : (s.advancePc).quit = s.quit := rfl
@[simp] theorem advancePc_run : (s.advancePc).run = s.run := rfl
@[simp] theorem advancePc_fbOut : (s.advancePc).fbOut = s.fbOut := rfl
@[simp] theorem advancePc_beep : (s.advancePc).beep = s.beep := rfl
@[simp] theorem advancePc_rand : (s.advancePc).rand = s.rand := rfl
@[simp] theorem advancePc_inputs : (s.advancePc).inputs = s.inputs := rfl
@[simp] theorem advancePc_tick : (s.advancePc).tick = s.tick := rfl
@[simp] theorem advancePc_reg (z : Nibble) : (s.advancePc).reg z = s.reg z := rfl
@[simp] theorem advancePc_byteAt (a : Nat) : (s.advancePc).byteAt a = s.byteAt a := rfl
@[simp] theorem advancePc_pixel (c : Fin 64) (r : Fin 32) : (s.advancePc).pixel c r = s.pixel c r := rfl

/-! ### setKeys -/

@[simp] theorem setKeys_cfg (k : Vector Bool 16) : (s.setKeys k).cfg = s.cfg := rfl
@[simp] theorem setKeys_mem (k : Vector Bool 16) : (s.setKeys k).mem = s.mem := rfl
@[simp] theorem setKeys_v (k : Vector Bool 16) : (s.setKeys k).v = s.v := rfl
@[simp] theorem setKeys_i (k : Vector Bool 16) : (s.setKeys k).i = s.i := rfl
@[simp] theorem setKeys_pc (k : Vector Bool 16) : (s.setKeys k).pc = s.pc := rfl
@[simp] theorem setKeys_stack (k : Vector Bool 16) : (s.setKeys k).stack = s.stack := rfl
@[simp] theorem setKeys_sp (k : Vector Bool 16) : (s.setKeys k).sp = s.sp := rfl
@[simp] theorem setKeys_dt (k : Vector Bool 16) : (s.setKeys k).dt = s.dt := rfl
@[simp] theorem setKeys_st (k : Vector Bool 16) : (s.setKeys k).st = s.st := rfl
@[simp] theorem setKeys_accDT (k : Vector Bool 16) : (s.setKeys k).accDT = s.accDT := rfl
@[simp] theorem setKeys_accST (k : Vector Bool 16) : (s.setKeys k).accST = s.accST := rfl
@[simp] theorem setKeys_fb (k : Vector Bool 16) : (s.setKeys k).fb = s.fb := rfl
@[simp] theorem setKeys_key (k : Vector Bool 16) : (s.setKeys k).key = k := rfl
@[simp] theorem setKeys_quit (k : Vector Bool 16) : (s.setKeys k).quit = s.quit := rfl
@[simp] theorem setKeys_run (k : Vector Bool 16) : (s.setKeys k).run = s.run := rfl
@[simp] theorem setKeys_fbOut (k : Vector Bool 16) : (s.setKeys k).fbOut = s.fbOut := rfl
@[simp] theorem setKeys_beep (k : Vector Bool 16) : (s.setKeys k).beep = s.beep := rfl
@[simp] theorem setKeys_rand (k : Vector Bool 16) : (s.setKeys k).rand = s.rand := rfl
@[simp] theorem setKeys_inputs (k : Vector Bool 16) : (s.setKeys k).inputs = s.inputs := rfl
@[simp] theorem setKeys_tick (k : Vector Bool 16) : (s.setKeys k).tick = s.tick := rfl
@[simp] theorem setKeys_reg (k : Vector Bool 16) (z : Nibble) : (s.setKeys k).reg z = s.reg z := rfl
@[simp] theorem setKeys_byteAt (k : Vector Bool 16) (a : Nat) : (s.setKeys k).byteAt a = s.byteAt a := rfl
@[simp] theorem setKeys_pixel (k : Vector Bool 16) (c : Fin 64) (r : Fin 32) : (s.setKeys k).pixel c r = s.pixel c r := rfl

/-! ### outputFb -/

@[simp] theorem outputFb_cfg : (outputFb s).cfg = s.cfg := rfl
@[simp] theorem outputFb_mem : (outputFb s).mem = s.mem := rfl
@[simp] theorem outputFb_v : (outputFb s).v = s.v := rfl
@[simp] theorem outputFb_i : (outputFb s).i = s.i := rfl
@[simp] theorem outputFb_pc : (outputFb s).pc = s.pc := rfl
@[simp] theorem outputFb_stack : (outputFb s).stack = s.stack := rfl
@[simp] theorem outputFb_sp : (outputFb s).sp = s.sp := rfl
@[simp] theorem outputFb_dt : (outputFb s).dt = s.dt := rfl
@[simp] theorem outputFb_st : (outputFb s).st = s.st := rfl
@[simp] theorem outputFb_accDT : (outputFb s).accDT = s.accDT := rfl
@[simp] theorem outputFb_accST : (outputFb s).accST = s.accST := rfl
@[simp] theorem outputFb_fb : (outputFb s).fb = s.fb := rfl
@[simp] theorem outputFb_key : (outputFb s).key = s.key := rfl
@[simp] theorem outputFb_quit : (outputFb s).quit = s.quit := rfl
@[simp] theorem outputFb_run : (outputFb s).run = s.run := rfl
@[simp] theorem outputFb_fbOut : (outputFb s).fbOut = s.fb := rfl
@[simp] theorem outputFb_beep : (outputFb s).beep = s.beep := rfl
@[simp] theorem outputFb_rand : (outputFb s).rand = s.rand := rfl
@[simp] theorem outputFb_inputs : (outputFb s).inputs = s.inputs := rfl
@[simp] theorem outputFb_tick : (outputFb s).tick = s.tick := rfl
@[simp] theorem outputFb_reg (z : Nibble) : (outputFb s).reg z = s.reg z := rfl
@[simp] theorem outputFb_byteAt (a : Nat) : (outputFb s).byteAt a = s.byteAt a := rfl
@[simp] theorem outputFb_pixel (c : Fin 64) (r : Fin 32) : (outputFb s).pixel c r = s.pixel c r := rfl

/-! ### takeInput -/

@[simp] theorem takeInput_cfg (inp : TickInput) : (takeInput inp s).cfg = s.cfg := rfl
@[simp] theorem takeInput_mem (inp : TickInput) : (takeInput inp s).mem = s.mem := rfl
@[simp] theorem takeInput_v (inp : TickInput) : (takeInput inp s).v = s.v := rfl
@[simp] theorem takeInput_i (inp : TickInput) : (takeInput inp s).i = s.i := rfl
@[simp] theorem takeInput_pc (inp : TickInput) : (takeInput inp s).pc = s.pc := rfl
@[simp] theorem takeInput_stack (inp : TickInput) : (takeInput inp s).stack = s.stack := rfl
@[simp] theorem takeInput_sp (inp : TickInput) : (takeInput inp s).sp = s.sp := rfl
@[simp] theorem takeInput_dt (inp : TickInput) : (takeInput inp s).dt = s.dt := rfl
@[simp] theorem takeInput_st (inp : TickInput) : (takeInput inp s).st = s.st := rfl
@[simp] theorem takeInput_accDT (inp : TickInput) : (takeInput inp s).accDT = s.accDT := rfl
@[simp] theorem takeInput_accST (inp : TickInput) : (takeInput inp s).accST = s.accST := rfl
@[simp] theorem takeInput_fb (inp : TickInput) : (takeInput inp s).fb = s.fb := rfl
@[simp] theorem takeInput_key (inp : TickInput) : (takeInput inp s).key = s.key := rfl
@[simp] theorem takeInput_quit (inp : TickInput) : (takeInput inp s).quit = s.quit := rfl
@[simp] theorem takeInput_run (inp : TickInput) : (takeInput inp s).run = s.run := rfl
@[simp] theorem takeInput_fbOut (inp : TickInput) : (takeInput inp s).fbOut = s.fbOut := rfl
@[simp] theorem takeInput_beep (inp : TickInput) : (takeInput inp s).beep = s.beep := rfl
@[simp] theorem takeInput_rand (inp : TickInput) : (takeInput inp s).rand = inp.rand := rfl
@[simp] theorem takeInput_inputs (inp : TickInput) : (takeInput inp s).inputs = s.inputs.tail := rfl
@[simp] theorem takeInput_tick (inp : TickInput) : (takeInput inp s).tick = s.tick + 1 := rfl
@[simp] theorem takeInput_reg (inp : TickInput) (z : Nibble) : (takeInput inp s).reg z = s.reg z := rfl
@[simp] theorem takeInput_byteAt (inp : TickInput) (a : Nat) : (takeInput inp s).byteAt a = s.byteAt a := rfl
@[simp] theorem takeInput_pixel (inp : TickInput) (c : Fin 64) (r : Fin 32) : (takeInput inp s).pixel c r = s.pixel c r := rfl

/-! ### The end of a tick -/

@[simp] theorem quitCheck_quit (q : Bool) : (quitCheck q s).quit = (s.quit || q) := rfl
@[simp] theorem quitCheck_run (q : Bool) :
    (quitCheck q s).run = if s.quit || q then .halted else s.run := rfl
@[simp] theorem quitCheck_cfg (q : Bool) : (quitCheck q s).cfg = s.cfg := rfl
@[simp] theorem quitCheck_mem (q : Bool) : (quitCheck q s).mem = s.mem := rfl
@[simp] theorem quitCheck_v (q : Bool) : (quitCheck q s).v = s.v := rfl
@[simp] theorem quitCheck_i (q : Bool) : (quitCheck q s).i = s.i := rfl
@[simp] theorem quitCheck_pc (q : Bool) : (quitCheck q s).pc = s.pc := rfl
@[simp] theorem quitCheck_stack (q : Bool) : (quitCheck q s).stack = s.stack := rfl
@[simp] theorem quitCheck_sp (q : Bool) : (quitCheck q s).sp = s.sp := rfl
@[simp] theorem quitCheck_dt (q : Bool) : (quitCheck q s).dt = s.dt := rfl
@[simp] theorem quitCheck_st (q : Bool) : (quitCheck q s).st = s.st := rfl
@[simp] theorem quitCheck_accDT (q : Bool) : (quitCheck q s).accDT = s.accDT := rfl
@[simp] theorem quitCheck_accST (q : Bool) : (quitCheck q s).accST = s.accST := rfl
@[simp] theorem quitCheck_fb (q : Bool) : (quitCheck q s).fb = s.fb := rfl
@[simp] theorem quitCheck_key (q : Bool) : (quitCheck q s).key = s.key := rfl
@[simp] theorem quitCheck_fbOut (q : Bool) : (quitCheck q s).fbOut = s.fbOut := rfl
@[simp] theorem quitCheck_beep (q : Bool) : (quitCheck q s).beep = s.beep := rfl
@[simp] theorem quitCheck_rand (q : Bool) : (quitCheck q s).rand = s.rand := rfl
@[simp] theorem quitCheck_inputs (q : Bool) : (quitCheck q s).inputs = s.inputs := rfl
@[simp] theorem quitCheck_tick (q : Bool) : (quitCheck q s).tick = s.tick := rfl

@[simp] theorem advanceTimers_cfg (e : Nat) : (advanceTimers e s).cfg = s.cfg := rfl
@[simp] theorem advanceTimers_mem (e : Nat) : (advanceTimers e s).mem = s.mem := rfl
@[simp] theorem advanceTimers_v (e : Nat) : (advanceTimers e s).v = s.v := rfl
@[simp] theorem advanceTimers_i (e : Nat) : (advanceTimers e s).i = s.i := rfl
@[simp] theorem advanceTimers_pc (e : Nat) : (advanceTimers e s).pc = s.pc := rfl
@[simp] theorem advanceTimers_stack (e : Nat) : (advanceTimers e s).stack = s.stack := rfl
@[simp] theorem advanceTimers_sp (e : Nat) : (advanceTimers e s).sp = s.sp := rfl
@[simp] theorem advanceTimers_fb (e : Nat) : (advanceTimers e s).fb = s.fb := rfl
@[simp] theorem advanceTimers_key (e : Nat) : (advanceTimers e s).key = s.key := rfl
@[simp] theorem advanceTimers_quit (e : Nat) : (advanceTimers e s).quit = s.quit := rfl
@[simp] theorem advanceTimers_run (e : Nat) : (advanceTimers e s).run = s.run := rfl
@[simp] theorem advanceTimers_fbOut (e : Nat) : (advanceTimers e s).fbOut = s.fbOut := rfl
@[simp] theorem advanceTimers_rand (e : Nat) : (advanceTimers e s).rand = s.rand := rfl
@[simp] theorem advanceTimers_inputs (e : Nat) : (advanceTimers e s).inputs = s.inputs := rfl
@[simp] theorem advanceTimers_tick (e : Nat) : (advanceTimers e s).tick = s.tick := rfl

@[simp] theorem endTick_cfg (inp : TickInput) : (endTick inp s).cfg = s.cfg := rfl
@[simp] theorem endTick_mem (inp : TickInput) : (endTick inp s).mem = s.mem := rfl
@[simp] theorem endTick_v (inp : TickInput) : (endTick inp s).v = s.v := rfl
@[simp] theorem endTick_i (inp : TickInput) : (endTick inp s).i = s.i := rfl
@[simp] theorem endTick_pc (inp : TickInput) : (endTick inp s).pc = s.pc := rfl
@[simp] theorem endTick_stack (inp : TickInput) : (endTick inp s).stack = s.stack := rfl
@[simp] theorem endTick_sp (inp : TickInput) : (endTick inp s).sp = s.sp := rfl
@[simp] theorem endTick_fb (inp : TickInput) : (endTick inp s).fb = s.fb := rfl
@[simp] theorem endTick_key (inp : TickInput) : (endTick inp s).key = s.key := rfl
@[simp] theorem endTick_rand (inp : TickInput) : (endTick inp s).rand = s.rand := rfl
@[simp] theorem endTick_inputs (inp : TickInput) : (endTick inp s).inputs = s.inputs := rfl
@[simp] theorem endTick_tick (inp : TickInput) : (endTick inp s).tick = s.tick := rfl
@[simp] theorem endTick_fbOut (inp : TickInput) : (endTick inp s).fbOut = s.fb := rfl
@[simp] theorem endTick_dt (inp : TickInput) :
    (endTick inp s).dt = (advanceTimers inp.elapsed s).dt := rfl
@[simp] theorem endTick_accDT (inp : TickInput) :
    (endTick inp s).accDT = (advanceTimers inp.elapsed s).accDT := rfl
@[simp] theorem endTick_st (inp : TickInput) :
    (endTick inp s).st = (advanceTimers inp.elapsed s).st := rfl
@[simp] theorem endTick_accST (inp : TickInput) :
    (endTick inp s).accST = (advanceTimers inp.elapsed s).accST := rfl
@[simp] theorem endTick_beep (inp : TickInput) :
    (endTick inp s).beep = (advanceTimers inp.elapsed s).beep := rfl
@[simp] theorem endTick_quit (inp : TickInput) : (endTick inp s).quit = (s.quit || inp.quit) := rfl
@[simp] theorem endTick_run (inp : TickInput) :
    (endTick inp s).run = if s.quit || inp.quit then .halted else s.run := rfl

/-- Everything the end of a tick writes (R247, R232, R249). -/
theorem endTick_eq (inp : TickInput) : endTick inp s = { s with
    dt := (endTick inp s).dt, accDT := (endTick inp s).accDT, st := (endTick inp s).st,
    accST := (endTick inp s).accST, beep := (endTick inp s).beep, fbOut := s.fb,
    quit := (endTick inp s).quit, run := (endTick inp s).run } := rfl

end Sys2Proof.Machine
end

