-- ==== Sys2Proof/Laws/Registers.lean ====
section
/-! SUPPORT. Reading a register after a write, and the call stack. -/

namespace Sys2Proof.Machine

@[simp] theorem except_ok_bind {ε α β : Type} (a : α) (f : α → Except ε β) :
    ((Except.ok a : Except ε α) >>= f) = f a := rfl

@[simp] theorem except_error_bind {ε α β : Type} (e : ε) (f : α → Except ε β) :
    ((Except.error e : Except ε α) >>= f) = .error e := rfl

@[simp] theorem except_pure {ε α : Type} (a : α) : (pure a : Except ε α) = .ok a := rfl

@[simp] theorem finish_ok (s : State) : finish (.ok s) = .next s := rfl
@[simp] theorem finish_error (f : Fault) : finish (.error f) = .fault f := rfl
@[simp] theorem raise_eq {α : Type} (f : Fault) : (raise f : Except Fault α) = .error f := rfl
@[simp] theorem afterNext_next (s : State) (f : State → State) : afterNext (.next s) f = .next (f s) := rfl
@[simp] theorem afterNext_fault (r : Fault) (f : State → State) : afterNext (.fault r) f = .fault r := rfl
@[simp] theorem afterNext_refused (r : Refusal) (f : State → State) :
    afterNext (.refused r) f = .refused r := rfl

theorem finish_eq_next {o : Except Fault State} {t : State} : finish o = .next t ↔ o = .ok t := by
  cases o <;> simp [finish]

theorem finish_eq_fault {o : Except Fault State} {f : Fault} : finish o = .fault f ↔ o = .error f := by
  cases o <;> simp [finish]

theorem finish_ne_refused {o : Except Fault State} {r : Refusal} : finish o ≠ .refused r := by
  cases o <;> simp [finish]

theorem afterNext_eq_next {o : Host.Outcome State Fault Refusal} {f : State → State} {t : State} :
    afterNext o f = .next t ↔ ∃ u, o = .next u ∧ t = f u := by
  cases o <;> simp [afterNext, eq_comm]

theorem afterNext_eq_fault {o : Host.Outcome State Fault Refusal} {f : State → State} {r : Fault} :
    afterNext o f = .fault r ↔ o = .fault r := by
  cases o <;> simp [afterNext]

/-! ## Registers -/

@[simp] theorem reg_setReg_self (s : State) (x : Nibble) (b : Byte) : (s.setReg x b).reg x = b := by
  simp [State.reg, State.setReg]

theorem reg_setReg_of_ne (s : State) {x z : Nibble} (b : Byte) (h : z ≠ x) :
    (s.setReg x b).reg z = s.reg z := by
  have : x.toNat ≠ z.toNat := fun e => h (BitVec.eq_of_toNat_eq e.symm)
  simp [State.reg, State.setReg, this]

theorem reg_setReg (s : State) (x z : Nibble) (b : Byte) :
    (s.setReg x b).reg z = if z = x then b else s.reg z := by
  split
  · subst z; exact reg_setReg_self s x b
  · exact reg_setReg_of_ne s b ‹_›

/-- Two register files are equal when every register reads equal. -/
theorem v_ext {s t : State} (h : ∀ z, s.reg z = t.reg z) : s.v = t.v := by
  apply Vector.ext
  intro j hj
  have := h (BitVec.ofNat 4 j)
  have e : (BitVec.ofNat 4 j).toNat = j := by simp; omega
  simpa [State.reg, e] using this

/-- The register file written by `setReg` is all that changed. -/
theorem setReg_eq (s : State) (x : Nibble) (b : Byte) :
    s.setReg x b = { s with v := (s.setReg x b).v } := rfl

@[simp] theorem flagThenResult_eq (x : Nibble) (flag result : State → Byte) (s : State) :
    flagThenResult x flag result s = (s.setReg vf (flag s)).setReg x (result (s.setReg vf (flag s))) := rfl

theorem skipIf_pc (c : Bool) (s : State) : (skipIf c s).pc = if c then s.pc + 2 else s.pc := rfl

theorem skipIf_eq (c : Bool) (s : State) : skipIf c s = { s with pc := (skipIf c s).pc } := rfl

/-! ## Call stack (R30) -/

theorem push_of_lt {s : State} (w : Word) (h : s.sp.val < 16) :
    s.push w = .ok { s with stack := s.stack.set s.sp.val w, sp := ⟨s.sp.val + 1, by omega⟩ } := by
  simp [State.push, h]

theorem push_of_full {s : State} (w : Word) (h : s.sp.val = 16) : s.push w = .error .stackOverflow := by
  simp [State.push, h]

theorem pop_of_pos {s : State} (h : 0 < s.sp.val) :
    s.pop = .ok (s.stack[s.sp.val - 1], { s with sp := ⟨s.sp.val - 1, by omega⟩ }) := by
  simp only [State.pop, h, dite_true]

theorem pop_of_zero {s : State} (h : s.sp.val = 0) : s.pop = .error .stackUnderflow := by
  simp [State.pop, h]

end Sys2Proof.Machine
end

