-- ==== Sys2Proof/Laws/Memory.lean ====
section
/-! SUPPORT. Memory: the canonical form is kept, a read after a write, and equal memories are equal
data. -/

namespace Sys2Proof.Machine

variable {c : Config}

/-! ## Reading -/

theorem read_below {m : Memory} {lo a : Nat} (h : Memory.wfFrom c lo m = true) (ha : a < lo) :
    Memory.read c m a = resetByte c a := by
  induction m generalizing lo with
  | nil => rfl
  | cons p m ih =>
    obtain ⟨k, d⟩ := p
    simp only [Memory.wfFrom, Bool.and_eq_true, decide_eq_true_eq] at h
    have hk : a ≠ k := by omega
    simp only [Memory.read, hk, if_false]
    exact ih h.2 (by omega)

theorem read_cons_of_ne (m : Memory) {a a' : Nat} (b : Byte) (h : a' ≠ a) :
    Memory.read c (Memory.cons c a b m) a' = Memory.read c m a' := by
  unfold Memory.cons
  split
  · rfl
  · simp [Memory.read, h]

theorem read_cons_self {m : Memory} {a lo : Nat} (b : Byte) (h : Memory.wfFrom c lo m = true) (ha : a < lo) :
    Memory.read c (Memory.cons c a b m) a = b := by
  unfold Memory.cons
  split
  · rw [read_below h ha]; exact Eq.symm ‹_›
  · simp [Memory.read]

/-- A write leaves every other address alone (R71). -/
theorem read_write_of_ne (m : Memory) {a a' : Nat} (b : Byte) (h : a' ≠ a) :
    Memory.read c (Memory.write c m a b) a' = Memory.read c m a' := by
  induction m with
  | nil => simpa [Memory.write] using read_cons_of_ne [] b h
  | cons p m ih =>
    obtain ⟨k, d⟩ := p
    unfold Memory.write
    split
    · exact read_cons_of_ne _ b h
    · split
      · subst k; rw [read_cons_of_ne m b h]; simp [Memory.read, h]
      · simp only [Memory.read, ih]

/-- A read after a write to the same address gives the byte written (R74). -/
theorem read_write_self_from {m : Memory} {lo : Nat} (a : Nat) (b : Byte)
    (h : Memory.wfFrom c lo m = true) : Memory.read c (Memory.write c m a b) a = b := by
  induction m generalizing lo with
  | nil => exact read_cons_self (lo := a + 1) b rfl (by omega)
  | cons p m ih =>
    obtain ⟨k, d⟩ := p
    simp only [Memory.wfFrom, Bool.and_eq_true, decide_eq_true_eq] at h
    unfold Memory.write
    split
    · refine read_cons_self (lo := k) b ?_ ‹_›
      simp [Memory.wfFrom, h]
    · split
      · subst k; exact read_cons_self b h.2 (by omega)
      · simp only [Memory.read, ‹¬ a = k›, if_false]
        exact ih h.2

theorem read_write_self {m : Memory} (a : Nat) (b : Byte) (h : Memory.wf c m = true) :
    Memory.read c (Memory.write c m a b) a = b := read_write_self_from a b h

/-! ## The canonical form -/

theorem wfFrom_mono {m : Memory} {lo lo' : Nat} (h : Memory.wfFrom c lo m = true) (hl : lo' ≤ lo) :
    Memory.wfFrom c lo' m = true := by
  cases m with
  | nil => rfl
  | cons p m =>
    obtain ⟨k, d⟩ := p
    simp only [Memory.wfFrom, Bool.and_eq_true, decide_eq_true_eq] at h ⊢
    exact ⟨⟨⟨by omega, h.1.1.2⟩, h.1.2⟩, h.2⟩

theorem wfFrom_cons {m : Memory} {lo a : Nat} (b : Byte) (h : Memory.wfFrom c (a + 1) m = true)
    (hl : lo ≤ a) (ha : a < memSize) : Memory.wfFrom c lo (Memory.cons c a b m) = true := by
  unfold Memory.cons
  split
  · exact wfFrom_mono h (by omega)
  · simp [Memory.wfFrom, h, hl, ha, ‹¬ b = _›]

theorem wfFrom_write {m : Memory} {lo a : Nat} (b : Byte) (h : Memory.wfFrom c lo m = true)
    (hl : lo ≤ a) (ha : a < memSize) : Memory.wfFrom c lo (Memory.write c m a b) = true := by
  induction m generalizing lo with
  | nil => exact wfFrom_cons b rfl hl ha
  | cons p m ih =>
    obtain ⟨k, d⟩ := p
    simp only [Memory.wfFrom, Bool.and_eq_true, decide_eq_true_eq] at h
    unfold Memory.write
    split
    · refine wfFrom_cons b ?_ hl ha
      simp only [Memory.wfFrom, Bool.and_eq_true, decide_eq_true_eq]
      exact ⟨⟨⟨by omega, h.1.1.2⟩, h.1.2⟩, h.2⟩
    · split
      · subst k; exact wfFrom_cons b h.2 hl ha
      · simp only [Memory.wfFrom, Bool.and_eq_true, decide_eq_true_eq]
        exact ⟨h.1, ih h.2 (by omega)⟩

/-- A write inside memory keeps the canonical form. -/
theorem wf_write {m : Memory} {a : Nat} (b : Byte) (h : Memory.wf c m = true) (ha : a < memSize) :
    Memory.wf c (Memory.write c m a b) = true := wfFrom_write b h (Nat.zero_le a) ha

/-- An address below every listed one reads as at reset, and one that differs is listed. -/
theorem wfFrom_ext {m m' : Memory} {lo : Nat} (h : Memory.wfFrom c lo m = true)
    (h' : Memory.wfFrom c lo m' = true) (e : ∀ a, Memory.read c m a = Memory.read c m' a) : m = m' := by
  induction m generalizing m' lo with
  | nil =>
    cases m' with
    | nil => rfl
    | cons p' m' =>
      obtain ⟨k', d'⟩ := p'
      simp only [Memory.wfFrom, Bool.and_eq_true, decide_eq_true_eq] at h'
      have := e k'
      simp only [Memory.read, if_true] at this
      exact absurd this.symm h'.1.2
  | cons p m ih =>
    obtain ⟨k, d⟩ := p
    have h0 := h
    simp only [Memory.wfFrom, Bool.and_eq_true, decide_eq_true_eq] at h
    cases m' with
    | nil =>
      have := e k
      simp only [Memory.read, if_true] at this
      exact absurd this h.1.2
    | cons p' m' =>
      obtain ⟨k', d'⟩ := p'
      have h0' := h'
      simp only [Memory.wfFrom, Bool.and_eq_true, decide_eq_true_eq] at h'
      have hk : k = k' := by
        rcases Nat.lt_trichotomy k k' with hlt | heq | hgt
        · have := e k
          rw [read_below (m := (k', d') :: m') (lo := k')
            (by simp only [Memory.wfFrom, Bool.and_eq_true, decide_eq_true_eq]
                exact ⟨⟨⟨le_refl _, h'.1.1.2⟩, h'.1.2⟩, h'.2⟩) hlt] at this
          simp only [Memory.read, if_true] at this
          exact absurd this h.1.2
        · exact heq
        · have := e k'
          rw [read_below (m := (k, d) :: m) (lo := k)
            (by simp only [Memory.wfFrom, Bool.and_eq_true, decide_eq_true_eq]
                exact ⟨⟨⟨le_refl _, h.1.1.2⟩, h.1.2⟩, h.2⟩) hgt] at this
          simp only [Memory.read, if_true] at this
          exact absurd this.symm h'.1.2
      subst k'
      have hd : d = d' := by have := e k; simpa [Memory.read] using this
      subst d'
      congr 1
      refine ih h.2 h'.2 fun a => ?_
      by_cases ha : a = k
      · subst a; rw [read_below h.2 (by omega), read_below h'.2 (by omega)]
      · have := e a; simpa [Memory.read, ha] using this

/-! ## The bounds-checked accessors (R63) -/

theorem readByte_of_lt {s : State} {a : Nat} (h : a < 4096) : s.readByte a = .ok (s.byteAt a) := by
  simp [State.readByte, memSize, h]

theorem readByte_of_ge {s : State} {a : Nat} (h : 4096 ≤ a) :
    s.readByte a = .error (.addressOutOfRange a 4096) := by
  simp [State.readByte, memSize, Nat.not_lt.mpr h]

theorem writeByte_of_lt {s : State} {a : Nat} (b : Byte) (h : a < 4096) :
    s.writeByte a b = .ok { s with mem := Memory.write s.cfg s.mem a b } := by
  simp [State.writeByte, memSize, h]

theorem writeByte_of_ge {s : State} {a : Nat} (b : Byte) (h : 4096 ≤ a) :
    s.writeByte a b = .error (.addressOutOfRange a 4096) := by
  simp [State.writeByte, memSize, Nat.not_lt.mpr h]

/-! ## Copying a ROM (R261) -/

theorem wf_copyBytes (rom : List Byte) {m : Memory} {a : Nat} (h : a + rom.length ≤ 4096)
    (w : Memory.wf c m = true) : Memory.wf c (copyBytes c m a rom) = true := by
  induction rom generalizing m a with
  | nil => exact w
  | cons b rom ih =>
    simp only [List.length_cons] at h
    exact ih (by omega) (wf_write b w (by show _ < 4096; omega))

theorem read_copyBytes_outside (rom : List Byte) (m : Memory) {a k : Nat}
    (h : k < a ∨ a + rom.length ≤ k) : Memory.read c (copyBytes c m a rom) k = Memory.read c m k := by
  induction rom generalizing m a with
  | nil => rfl
  | cons b rom ih =>
    simp only [List.length_cons] at h
    rw [copyBytes, ih _ (by omega), read_write_of_ne _ _ (by omega)]

theorem read_copyBytes_inside (rom : List Byte) {m : Memory} {a k : Nat} (h : k < rom.length)
    (hl : a + rom.length ≤ 4096) (w : Memory.wf c m = true) :
    Memory.read c (copyBytes c m a rom) (a + k) = rom[k] := by
  induction rom generalizing m a k with
  | nil => simp at h
  | cons b rom ih =>
    simp only [List.length_cons] at h hl
    have w' := wf_write b w (c := c) (a := a) (by show _ < 4096; omega)
    cases k with
    | zero => rw [copyBytes, read_copyBytes_outside _ _ (by omega), Nat.add_zero, read_write_self _ _ w]; rfl
    | succ k =>
      have := ih (a := a + 1) (k := k) (by omega) (by omega) w'
      rw [copyBytes, show a + (k + 1) = a + 1 + k by omega, this]; rfl

/-! ## Fx55 and Fx65 (R154, R155) -/

/-- Everything `storeRegs` does when its span lies in memory. -/
theorem storeRegs_ok (n k : Nat) (s : State) (hk : k + n ≤ 16) (h : n = 0 ∨ s.i.toNat + k + n ≤ 4096) :
    ∃ t, storeRegs n k s = .ok t ∧ t = { s with mem := t.mem } ∧
      (∀ a, (a < s.i.toNat + k ∨ s.i.toNat + k + n ≤ a) → t.byteAt a = s.byteAt a) ∧
      (Memory.wf s.cfg s.mem = true → Memory.wf t.cfg t.mem = true ∧
        ∀ j, k ≤ j → j < k + n → t.byteAt (s.i.toNat + j) = s.reg (BitVec.ofNat 4 j)) := by
  induction n generalizing k s with
  | zero => exact ⟨s, rfl, rfl, fun _ _ => rfl, fun w => ⟨w, fun j _ _ => by omega⟩⟩
  | succ n ih =>
    have hlt : s.i.toNat + k < 4096 := by omega
    let u : State := { s with mem := Memory.write s.cfg s.mem (s.i.toNat + k) (s.reg (BitVec.ofNat 4 k)) }
    obtain ⟨t, ht, hfr, hout, hin⟩ := ih (k + 1) u (by omega) (by
      show n = 0 ∨ s.i.toNat + (k + 1) + n ≤ 4096
      omega)
    refine ⟨t, ?_, ?_, ?_, ?_⟩
    · rw [storeRegs, writeByte_of_lt _ hlt]; exact ht
    · rw [hfr]
    · intro a ha
      rw [hout a (by show a < s.i.toNat + (k + 1) ∨ s.i.toNat + (k + 1) + n ≤ a; omega)]
      exact read_write_of_ne s.mem _ (by omega)
    · intro w
      obtain ⟨w', hb⟩ := hin (wf_write (c := s.cfg) _ w hlt)
      refine ⟨w', fun j hj hj' => ?_⟩
      by_cases e : j = k
      · subst j
        rw [hout _ (Or.inl (by show s.i.toNat + k < s.i.toNat + (k + 1); omega))]
        exact read_write_self (c := s.cfg) _ _ w
      · exact hb j (by omega) (by omega)

/-- `storeRegs` faults at the first byte outside memory. -/
theorem storeRegs_error (n k : Nat) (s : State) (hn : 0 < n) (h : 4096 < s.i.toNat + k + n) :
    storeRegs n k s = .error (.addressOutOfRange (max (s.i.toNat + k) 4096) 4096) := by
  induction n generalizing k s with
  | zero => omega
  | succ n ih =>
    rw [storeRegs]
    by_cases hlt : s.i.toNat + k < 4096
    · rw [writeByte_of_lt _ hlt, except_ok_bind,
        ih (k + 1) _ (by omega) (by show 4096 < s.i.toNat + (k + 1) + n; omega)]
      show Except.error (Fault.addressOutOfRange (max (s.i.toNat + (k + 1)) 4096) 4096) = _
      congr 2; omega
    · rw [writeByte_of_ge _ (by omega), except_error_bind]
      congr 2; omega

/-- Everything `loadRegs` does when its span lies in memory. -/
theorem loadRegs_ok (n k : Nat) (s : State) (hk : k + n ≤ 16) (h : n = 0 ∨ s.i.toNat + k + n ≤ 4096) :
    ∃ t, loadRegs n k s = .ok t ∧ t = { s with v := t.v } ∧
      ∀ z : Nibble, t.reg z =
        if k ≤ z.toNat ∧ z.toNat < k + n then s.byteAt (s.i.toNat + z.toNat) else s.reg z := by
  induction n generalizing k s with
  | zero => exact ⟨s, rfl, rfl, fun z => by rw [if_neg (by omega)]⟩
  | succ n ih =>
    have hlt : s.i.toNat + k < 4096 := by omega
    obtain ⟨t, ht, hfr, hreg⟩ := ih (k + 1) (s.setReg (BitVec.ofNat 4 k) (s.byteAt (s.i.toNat + k)))
      (by omega) (by simp only [setReg_i]; omega)
    refine ⟨t, ?_, ?_, ?_⟩
    · rw [loadRegs, readByte_of_lt hlt]; exact ht
    · rw [hfr]; rfl
    · intro z
      have hz := z.isLt
      have e : (BitVec.ofNat 4 k).toNat = k := by simp; omega
      rw [hreg z]
      simp only [setReg_i, setReg_byteAt, reg_setReg]
      by_cases c1 : z.toNat = k
      · have : z = BitVec.ofNat 4 k := BitVec.eq_of_toNat_eq (by omega)
        rw [if_neg (by omega), if_pos this, if_pos (by omega), c1]
      · have : z ≠ BitVec.ofNat 4 k := fun q => c1 (by rw [q]; exact e)
        rw [if_neg this]
        by_cases c2 : k + 1 ≤ z.toNat ∧ z.toNat < k + 1 + n
        · rw [if_pos c2, if_pos (by omega)]
        · rw [if_neg c2, if_neg (by omega)]

/-- `loadRegs` faults at the first byte outside memory. -/
theorem loadRegs_error (n k : Nat) (s : State) (hn : 0 < n) (h : 4096 < s.i.toNat + k + n) :
    loadRegs n k s = .error (.addressOutOfRange (max (s.i.toNat + k) 4096) 4096) := by
  induction n generalizing k s with
  | zero => omega
  | succ n ih =>
    rw [loadRegs]
    by_cases hlt : s.i.toNat + k < 4096
    · rw [readByte_of_lt hlt, except_ok_bind,
        ih (k + 1) _ (by omega) (by simp only [setReg_i]; omega)]
      simp only [setReg_i]
      congr 2; omega
    · rw [readByte_of_ge (by omega), except_error_bind]
      congr 2; omega

end Sys2Proof.Machine
end

