-- ==== Sys2Proof/Laws/Display.lean ====
section
/-! SUPPORT. The framebuffer: what a toggle, a sprite row and a whole sprite do. -/

namespace Sys2Proof.Machine

/-! ## Framebuffer -/

theorem get_put (fb : Framebuffer) (c c' : Fin 64) (r r' : Fin 32) (b : Bool) :
    (fb.put c r b).get c' r' = if c' = c ∧ r' = r then b else fb.get c' r' := by
  unfold Framebuffer.put Framebuffer.get
  simp only [Fin.getElem_fin, Vector.getElem_set, Fin.ext_iff]
  by_cases hc : (c : Nat) = c'
  · by_cases hr : (r : Nat) = r'
    · simp [hc, hr]
    · simp [hc, hr, Ne.symm hr]
  · simp [hc, Ne.symm hc]

@[simp] theorem get_blank (c : Fin 64) (r : Fin 32) : Framebuffer.blank.get c r = false := by
  simp [Framebuffer.blank, Framebuffer.get]

@[simp] theorem clearFb_pixel (s : State) (c : Fin 64) (r : Fin 32) : s.clearFb.pixel c r = false :=
  get_blank c r

/-- Two framebuffers are equal when every pixel is. -/
theorem fb_ext {s t : State} (h : ∀ c r, s.pixel c r = t.pixel c r) : s.fb = t.fb := by
  apply Vector.ext
  intro c hc
  apply Vector.ext
  intro r hr
  exact h ⟨c, hc⟩ ⟨r, hr⟩

/-! ## Toggle (R171) -/

theorem toggle_eq (s : State) (c : Fin 64) (r : Fin 32) :
    s.toggle c r = { s with v := (s.toggle c r).v, fb := (s.toggle c r).fb } := rfl

theorem toggle_pixel (s : State) (c c' : Fin 64) (r r' : Fin 32) :
    (s.toggle c r).pixel c' r' = if c' = c ∧ r' = r then !s.pixel c r else s.pixel c' r' :=
  get_put s.fb c c' r r' _

theorem toggle_reg (s : State) (c : Fin 64) (r : Fin 32) (z : Nibble) :
    (s.toggle c r).reg z =
      if z = vf then s.reg vf ||| (if s.pixel c r then 1 else 0) else s.reg z :=
  reg_setReg s vf z _

theorem toggle_byteAt (s : State) (c : Fin 64) (r : Fin 32) (a : Nat) :
    (s.toggle c r).byteAt a = s.byteAt a := rfl

theorem toggle_i (s : State) (c : Fin 64) (r : Fin 32) : (s.toggle c r).i = s.i := rfl

/-! ## Placement (R173) -/

theorem spriteColumn_inj (x0 : Byte) {j k : Nat} (hj : j < 8) (hk : k < 8)
    (h : spriteColumn x0 j = spriteColumn x0 k) : j = k := by
  have := congrArg Fin.val h
  simp only [spriteColumn, Fin.ofNat] at this
  omega

theorem spriteRow_inj (y0 : Byte) {j k : Nat} (hj : j < 32) (hk : k < 32)
    (h : spriteRow y0 j = spriteRow y0 k) : j = k := by
  have := congrArg Fin.val h
  simp only [spriteRow, Fin.ofNat] at this
  omega

/-! ## One sprite row -/

/-- Everything the bits `cols` of one sprite row do: each set bit flips its own pixel once, and VF
collects the pixels that were set. -/
theorem drawBits_spec (x0 y0 b : Byte) (row : Nat) (cols : List Nat) (hn : cols.Nodup)
    (h8 : ∀ col ∈ cols, col < 8) (s : State) :
    let t := cols.foldl (drawBit x0 y0 b row) s
    t = { s with v := t.v, fb := t.fb } ∧
    (∀ z, z ≠ vf → t.reg z = s.reg z) ∧
    (∀ c r, (∃ col ∈ cols, spriteBit b col = true ∧ spriteColumn x0 col = c ∧ spriteRow y0 row = r) →
      t.pixel c r = !s.pixel c r) ∧
    (∀ c r, (¬ ∃ col ∈ cols, spriteBit b col = true ∧ spriteColumn x0 col = c ∧ spriteRow y0 row = r) →
      t.pixel c r = s.pixel c r) ∧
    ((∃ col ∈ cols, spriteBit b col = true ∧ s.pixel (spriteColumn x0 col) (spriteRow y0 row) = true) →
      t.reg vf = s.reg vf ||| 1) ∧
    ((¬ ∃ col ∈ cols, spriteBit b col = true ∧ s.pixel (spriteColumn x0 col) (spriteRow y0 row) = true) →
      t.reg vf = s.reg vf) := by
  induction cols generalizing s with
  | nil => exact ⟨rfl, fun _ _ => rfl, by simp, fun _ _ _ => rfl, by simp, fun _ => rfl⟩
  | cons k cols ih =>
    have hk : k ∉ cols := (List.nodup_cons.mp hn).1
    have hk8 : k < 8 := h8 k (by simp)
    obtain ⟨e, hz, hin, hout, hv1, hv0⟩ := ih (List.nodup_cons.mp hn).2
      (fun col hc => h8 col (by simp [hc])) (drawBit x0 y0 b row s k)
    simp only [List.foldl_cons]
    generalize hu : drawBit x0 y0 b row s k = u at *
    generalize ht : cols.foldl (drawBit x0 y0 b row) u = t at *
    have other : ∀ col ∈ cols, spriteColumn x0 col ≠ spriteColumn x0 k := fun col hc q =>
      hk (spriteColumn_inj x0 (h8 col (by simp [hc])) hk8 q ▸ hc)
    by_cases hb : spriteBit b k = true
    · have hu' : u = s.toggle (spriteColumn x0 k) (spriteRow y0 row) := by
        rw [← hu]; simp [drawBit, hb]
      have pix : ∀ col ∈ cols, u.pixel (spriteColumn x0 col) (spriteRow y0 row)
          = s.pixel (spriteColumn x0 col) (spriteRow y0 row) := fun col hc => by
        rw [hu', toggle_pixel, if_neg (fun q => other col hc q.1)]
      refine ⟨?_, ?_, ?_, ?_, ?_, ?_⟩
      · rw [e, hu']; rfl
      · intro z hne; rw [hz z hne, hu', toggle_reg, if_neg hne]
      · rintro c r ⟨col, hmem, hbit, hc, hr⟩
        rcases List.mem_cons.mp hmem with rfl | hmem
        · rw [hout c r (by rintro ⟨col', hm', -, hc', -⟩; exact other col' hm' (hc'.trans hc.symm)),
            hu', toggle_pixel, if_pos ⟨hc.symm, hr.symm⟩, hc, hr]
        · rw [hin c r ⟨col, hmem, hbit, hc, hr⟩, hu', toggle_pixel,
            if_neg (fun q => other col hmem (hc.trans q.1))]
      · intro c r hno
        rw [hout c r (fun ⟨col, hm, q⟩ => hno ⟨col, by simp [hm], q⟩), hu', toggle_pixel,
          if_neg (fun q => hno ⟨k, by simp, hb, q.1.symm, q.2.symm⟩)]
      · rintro ⟨col, hmem, hbit, hp⟩
        have hvu : u.reg vf = s.reg vf ||| (if s.pixel (spriteColumn x0 k) (spriteRow y0 row) then 1 else 0) := by
          rw [hu', toggle_reg, if_pos rfl]
        by_cases hrest : ∃ col ∈ cols, spriteBit b col = true ∧ u.pixel (spriteColumn x0 col) (spriteRow y0 row) = true
        · rw [hv1 hrest, hvu]; split <;> simp [BitVec.or_assoc]
        · rw [hv0 hrest, hvu]
          rcases List.mem_cons.mp hmem with rfl | hmem
          · simp [hp]
          · exact absurd ⟨col, hmem, hbit, (pix col hmem).trans hp⟩ hrest
      · intro hno
        have hpk : ¬ s.pixel (spriteColumn x0 k) (spriteRow y0 row) = true := fun q => hno ⟨k, by simp, hb, q⟩
        rw [hv0 (fun ⟨col, hm, hbit, hp⟩ => hno ⟨col, by simp [hm], hbit, (pix col hm).symm.trans hp⟩), hu',
          toggle_reg, if_pos rfl]
        simp [hpk]
    · have hu' : u = s := by rw [← hu]; simp [drawBit, hb]
      have hex : ∀ P : Nat → Prop, (∃ col ∈ k :: cols, spriteBit b col = true ∧ P col) ↔
          ∃ col ∈ cols, spriteBit b col = true ∧ P col := fun P =>
        ⟨fun ⟨col, hm, hbit, q⟩ => by
          rcases List.mem_cons.mp hm with rfl | hm
          · exact absurd hbit hb
          · exact ⟨col, hm, hbit, q⟩, fun ⟨col, hm, q⟩ => ⟨col, by simp [hm], q⟩⟩
      subst hu'
      refine ⟨e, hz, fun c r h => hin c r ((hex _).mp h), fun c r h => hout c r (fun q => h ((hex _).mpr q)),
        fun h => hv1 ((hex _).mp h), fun h => hv0 (fun q => h ((hex _).mpr q))⟩

/-! ## A whole sprite -/

/-- Some set bit of rows `row` to `row + n` of the sprite at I lands on pixel (c, r). -/
def SpriteHits (s : State) (x0 y0 : Byte) (row n : Nat) (c : Fin 64) (r : Fin 32) : Prop :=
  ∃ ρ col, row ≤ ρ ∧ ρ < row + n ∧ col < 8 ∧ spriteBit (s.byteAt (s.i.toNat + ρ)) col = true ∧
    spriteColumn x0 col = c ∧ spriteRow y0 ρ = r

/-- Some set bit of rows `row` to `row + n` of the sprite at I lands on a set pixel. -/
def SpriteCollides (s : State) (x0 y0 : Byte) (row n : Nat) : Prop :=
  ∃ ρ col, row ≤ ρ ∧ ρ < row + n ∧ col < 8 ∧ spriteBit (s.byteAt (s.i.toNat + ρ)) col = true ∧
    s.pixel (spriteColumn x0 col) (spriteRow y0 ρ) = true

/-- Everything `drawRows` does when its sprite lies in memory (R173). -/
theorem drawRows_ok (x0 y0 : Byte) (n row : Nat) (s : State) (hr : row + n ≤ 32)
    (h : n = 0 ∨ s.i.toNat + row + n ≤ 4096) :
    ∃ t, drawRows x0 y0 n row s = .ok t ∧ t = { s with v := t.v, fb := t.fb } ∧
      (∀ z, z ≠ vf → t.reg z = s.reg z) ∧
      (∀ c r, SpriteHits s x0 y0 row n c r → t.pixel c r = !s.pixel c r) ∧
      (∀ c r, ¬ SpriteHits s x0 y0 row n c r → t.pixel c r = s.pixel c r) ∧
      (SpriteCollides s x0 y0 row n → t.reg vf = s.reg vf ||| 1) ∧
      (¬ SpriteCollides s x0 y0 row n → t.reg vf = s.reg vf) := by
  induction n generalizing row s with
  | zero =>
    refine ⟨s, rfl, rfl, fun _ _ => rfl, ?_, fun _ _ _ => rfl, ?_, fun _ => rfl⟩
    · rintro c r ⟨ρ, col, h1, h2, -⟩; omega
    · rintro ⟨ρ, col, h1, h2, -⟩; omega
  | succ n ih =>
    have hlt : dataAddress s row < 4096 := by unfold dataAddress; omega
    obtain ⟨e1, hz1, hin1, hout1, hc1, hd1⟩ := drawBits_spec x0 y0 (s.byteAt (s.i.toNat + row)) row
      (List.range 8) List.nodup_range (fun col hc => List.mem_range.mp hc) s
    change (drawRow x0 y0 (s.byteAt (s.i.toNat + row)) row s) = _ at e1
    have hu : (List.range 8).foldl (drawBit x0 y0 (s.byteAt (s.i.toNat + row)) row) s
        = drawRow x0 y0 (s.byteAt (s.i.toNat + row)) row s := rfl
    rw [hu] at hz1 hin1 hout1 hc1 hd1
    generalize hq : drawRow x0 y0 (s.byteAt (s.i.toNat + row)) row s = u at *
    have ui : u.i = s.i := by rw [e1]
    have ub : ∀ a, u.byteAt a = s.byteAt a := fun a => by rw [e1]; rfl
    obtain ⟨t, ht, e, hz, hin, hout, hc, hd⟩ := ih (row + 1) u (by omega) (by rw [ui]; omega)
    have rowNe : ∀ ρ, row + 1 ≤ ρ → ρ < row + 1 + n → spriteRow y0 ρ ≠ spriteRow y0 row := fun ρ h1 h2 q => by
      have := spriteRow_inj y0 (by omega) (by omega) q
      omega
    -- pixels of later rows are as before this row
    have pix : ∀ ρ col, row + 1 ≤ ρ → ρ < row + 1 + n →
        u.pixel (spriteColumn x0 col) (spriteRow y0 ρ) = s.pixel (spriteColumn x0 col) (spriteRow y0 ρ) :=
      fun ρ col h1 h2 => hout1 _ _ (fun ⟨_, _, _, _, q⟩ => rowNe ρ h1 h2 q.symm)
    -- the hits split into those of this row and those of the later rows
    have hits : ∀ c r, SpriteHits u x0 y0 (row + 1) n c r ↔ ∃ ρ col, row + 1 ≤ ρ ∧ ρ < row + 1 + n ∧ col < 8 ∧
        spriteBit (s.byteAt (s.i.toNat + ρ)) col = true ∧ spriteColumn x0 col = c ∧ spriteRow y0 ρ = r := by
      intro c r; simp only [SpriteHits, ui, ub]
    have colls : SpriteCollides u x0 y0 (row + 1) n ↔ ∃ ρ col, row + 1 ≤ ρ ∧ ρ < row + 1 + n ∧ col < 8 ∧
        spriteBit (s.byteAt (s.i.toNat + ρ)) col = true ∧ s.pixel (spriteColumn x0 col) (spriteRow y0 ρ) = true := by
      simp only [SpriteCollides, ui, ub]
      exact ⟨fun ⟨ρ, col, a1, a2, a3, a4, a5⟩ => ⟨ρ, col, a1, a2, a3, a4, (pix ρ col a1 a2) ▸ a5⟩,
        fun ⟨ρ, col, a1, a2, a3, a4, a5⟩ => ⟨ρ, col, a1, a2, a3, a4, (pix ρ col a1 a2).symm ▸ a5⟩⟩
    have here : ∀ c r, SpriteHits s x0 y0 row (n + 1) c r ↔
        (∃ col ∈ List.range 8, spriteBit (s.byteAt (s.i.toNat + row)) col = true ∧
          spriteColumn x0 col = c ∧ spriteRow y0 row = r) ∨ SpriteHits u x0 y0 (row + 1) n c r := by
      intro c r
      rw [hits]
      constructor
      · rintro ⟨ρ, col, a1, a2, a3, a4⟩
        by_cases q : ρ = row
        · subst ρ; exact Or.inl ⟨col, List.mem_range.mpr a3, a4⟩
        · exact Or.inr ⟨ρ, col, by omega, by omega, a3, a4⟩
      · rintro (⟨col, a3, a4⟩ | ⟨ρ, col, a1, a2, a3, a4⟩)
        · exact ⟨row, col, le_refl _, by omega, List.mem_range.mp a3, a4⟩
        · exact ⟨ρ, col, by omega, by omega, a3, a4⟩
    have hereC : SpriteCollides s x0 y0 row (n + 1) ↔
        (∃ col ∈ List.range 8, spriteBit (s.byteAt (s.i.toNat + row)) col = true ∧
          s.pixel (spriteColumn x0 col) (spriteRow y0 row) = true) ∨ SpriteCollides u x0 y0 (row + 1) n := by
      rw [colls]
      constructor
      · rintro ⟨ρ, col, a1, a2, a3, a4⟩
        by_cases q : ρ = row
        · subst ρ; exact Or.inl ⟨col, List.mem_range.mpr a3, a4⟩
        · exact Or.inr ⟨ρ, col, by omega, by omega, a3, a4⟩
      · rintro (⟨col, a3, a4⟩ | ⟨ρ, col, a1, a2, a3, a4⟩)
        · exact ⟨row, col, le_refl _, by omega, List.mem_range.mp a3, a4⟩
        · exact ⟨ρ, col, by omega, by omega, a3, a4⟩
    refine ⟨t, ?_, ?_, ?_, ?_, ?_, ?_, ?_⟩
    · rw [drawRows, readByte_of_lt hlt, except_ok_bind]
      show drawRows x0 y0 n (row + 1) (drawRow x0 y0 (s.byteAt (s.i.toNat + row)) row s) = _
      rw [hq]; exact ht
    · rw [e, e1]
    · intro z hne; rw [hz z hne, hz1 z hne]
    · intro c r hit
      rcases (here c r).mp hit with h1 | h2
      · have later : ¬ SpriteHits u x0 y0 (row + 1) n c r := by
          rw [hits]; rintro ⟨ρ, col, a1, a2, -, -, -, a5⟩
          obtain ⟨_, _, _, _, q⟩ := h1
          exact rowNe ρ a1 a2 (a5.trans q.symm)
        rw [hout c r later, hin1 c r h1]
      · have now : ¬ ∃ col ∈ List.range 8, spriteBit (s.byteAt (s.i.toNat + row)) col = true ∧
            spriteColumn x0 col = c ∧ spriteRow y0 row = r := by
          rintro ⟨_, _, _, _, q⟩
          obtain ⟨ρ, col, a1, a2, -, -, -, a5⟩ := (hits c r).mp h2
          exact rowNe ρ a1 a2 (a5.trans q.symm)
        rw [hin c r h2, hout1 c r now]
    · intro c r miss
      rw [hout c r (fun q => miss ((here c r).mpr (Or.inr q))),
        hout1 c r (fun q => miss ((here c r).mpr (Or.inl q)))]
    · intro coll
      by_cases h2 : SpriteCollides u x0 y0 (row + 1) n
      · rw [hc h2]
        by_cases h1 : ∃ col ∈ List.range 8, spriteBit (s.byteAt (s.i.toNat + row)) col = true ∧
            s.pixel (spriteColumn x0 col) (spriteRow y0 row) = true
        · rw [hc1 h1]; simp [BitVec.or_assoc]
        · rw [hd1 h1]
      · rcases hereC.mp coll with h1 | h2'
        · rw [hd h2, hc1 h1]
        · exact absurd h2' h2
    · intro miss
      rw [hd (fun q => miss (hereC.mpr (Or.inr q))), hd1 (fun q => miss (hereC.mpr (Or.inl q)))]

/-- One sprite row writes VF and the framebuffer alone. -/
theorem drawRow_frame (x0 y0 b : Byte) (row : Nat) (s : State) :
    drawRow x0 y0 b row s =
      { s with v := (drawRow x0 y0 b row s).v, fb := (drawRow x0 y0 b row s).fb } ∧
    ∀ z, z ≠ vf → (drawRow x0 y0 b row s).reg z = s.reg z := by
  have := drawBits_spec x0 y0 b row (List.range 8) List.nodup_range (fun _ h => List.mem_range.mp h) s
  exact ⟨this.1, this.2.1⟩

/-- A draw of any number of rows that goes on writes VF and the framebuffer alone. -/
theorem drawRows_frame (x0 y0 : Byte) (n row : Nat) (s t : State) (h : drawRows x0 y0 n row s = .ok t) :
    t = { s with v := t.v, fb := t.fb } ∧ ∀ z, z ≠ vf → t.reg z = s.reg z := by
  induction n generalizing row s with
  | zero => cases h; exact ⟨rfl, fun _ _ => rfl⟩
  | succ n ih =>
    rw [drawRows] at h
    by_cases q : dataAddress s row < 4096
    · rw [readByte_of_lt q, except_ok_bind] at h
      obtain ⟨e, hz⟩ := ih _ _ h
      obtain ⟨e', hz'⟩ := drawRow_frame x0 y0 (s.byteAt (dataAddress s row)) row s
      refine ⟨?_, fun z hne => by rw [hz z hne, hz' z hne]⟩
      rw [e, e']
    · rw [readByte_of_ge (by omega), except_error_bind] at h; cases h

/-- `drawRows` faults at the first sprite byte outside memory (R73, R173). -/
theorem drawRows_error (x0 y0 : Byte) (n row : Nat) (s : State) (hn : 0 < n)
    (h : 4096 < s.i.toNat + row + n) :
    drawRows x0 y0 n row s = .error (.addressOutOfRange (max (s.i.toNat + row) 4096) 4096) := by
  induction n generalizing row s with
  | zero => omega
  | succ n ih =>
    rw [drawRows]
    by_cases hlt : dataAddress s row < 4096
    · have ui : (drawRow x0 y0 (s.byteAt (dataAddress s row)) row s).i = s.i := by
        have := (drawBits_spec x0 y0 (s.byteAt (dataAddress s row)) row (List.range 8) List.nodup_range
          (fun col hc => List.mem_range.mp hc) s).1
        change drawRow x0 y0 (s.byteAt (dataAddress s row)) row s = _ at this
        rw [this]
      unfold dataAddress at hlt
      rw [readByte_of_lt (by unfold dataAddress; exact hlt), except_ok_bind, ih (row + 1) _ (by omega) (by rw [ui]; omega), ui]
      congr 2; omega
    · rw [readByte_of_ge (by omega), except_error_bind]
      unfold dataAddress at *
      congr 2; omega

end Sys2Proof.Machine
end

