-- ==== Sys2Proof/Laws/Timers.lean ====
section
/-! SUPPORT. The timer loop of R232: one pass, its accumulator, and independence of the fuel. -/

namespace Sys2Proof.Machine

/-- Everything the loop does: with enough fuel it ends with the accumulator below the period, the
timer lowered once a full period but not below 0, and a hit when it went to 0. -/
theorem drainTimer_spec {period : Nat} (hp : 0 < period) (fuel acc : Nat) (t : Byte) (hit : Bool)
    (hf : acc / period ≤ fuel) :
    (drainTimer period fuel acc t hit).1.toNat = t.toNat - acc / period ∧
    (drainTimer period fuel acc t hit).2.1 = acc % period ∧
    ((drainTimer period fuel acc t hit).2.2 = true ↔
      hit = true ∨ (1 ≤ t.toNat ∧ t.toNat ≤ acc / period)) := by
  induction fuel generalizing acc t hit with
  | zero =>
    have h0 : acc / period = 0 := Nat.le_zero.mp hf
    have : acc < period := by
      by_contra hge
      exact absurd h0 (Nat.ne_of_gt (Nat.div_pos (Nat.le_of_not_lt hge) hp))
    simp [drainTimer, h0, Nat.mod_eq_of_lt this]
    intros; omega
  | succ fuel ih =>
    unfold drainTimer
    by_cases hle : period ≤ acc
    · rw [if_pos hle]
      have hdiv : acc / period = (acc - period) / period + 1 := by
        rw [Nat.div_eq, if_pos ⟨hp, hle⟩]
      have hmod : acc % period = (acc - period) % period := by
        rw [Nat.mod_eq, if_pos ⟨hp, hle⟩]
      rw [hmod, hdiv]
      rw [hdiv] at hf
      by_cases ht : 0 < t.toNat
      · rw [if_pos ht]
        obtain ⟨h1, h2, h3⟩ := ih (acc - period) (t - 1) (hit || t == 1) (Nat.le_of_succ_le_succ hf)
        have hsub : (t - 1).toNat = t.toNat - 1 := by
          have := t.isLt
          rw [BitVec.toNat_sub]; simp; omega
        have heq : (t == 1) = true ↔ t.toNat = 1 := by
          rw [beq_iff_eq, ← BitVec.toNat_inj]; rfl
        generalize (acc - period) / period = k at *
        refine ⟨by rw [h1, hsub]; omega, h2, ?_⟩
        rw [h3, hsub, Bool.or_eq_true, heq]
        by_cases hh : hit = true
        · simp [hh]
        · simp [hh]; omega
      · rw [if_neg ht]
        obtain ⟨h1, h2, h3⟩ := ih (acc - period) t hit (Nat.le_of_succ_le_succ hf)
        generalize (acc - period) / period = k at *
        refine ⟨by rw [h1]; omega, h2, ?_⟩
        rw [h3]
        by_cases hh : hit = true
        · simp [hh]
        · simp [hh]; omega
    · rw [if_neg hle]
      have hlt : acc < period := by omega
      have h0 : acc / period = 0 := Nat.div_eq_of_lt hlt
      simp [h0, Nat.mod_eq_of_lt hlt]
      intros; omega

/-- The loop's fuel, the accumulator itself, is enough. -/
theorem drainFuel_enough (period acc : Nat) : acc / period ≤ acc := Nat.div_le_self acc period

/-- The accumulator after a timer phase is below the period (R33). -/
theorem advanceTimer_acc_lt {period : Nat} (hp : 0 < period) (elapsed acc : Nat) (t : Byte) :
    (advanceTimer period elapsed acc t).2.1 < period := by
  unfold advanceTimer
  rw [(drainTimer_spec hp _ _ _ _ (drainFuel_enough period _)).2.1]
  exact Nat.mod_lt _ hp

end Sys2Proof.Machine
end

