-- ==== Sys2Proof/Laws/Exec.lean ====
section
/-! SUPPORT. What each meaning does, once: an equation where it always goes on, and one equation per
case where it can fault. -/

namespace Sys2Proof.Machine

variable (s : State) (x y : Nibble) (kk : Byte) (nnn : Address)

/-! ## Meanings that always go on -/

@[simp] theorem exec_halt : exec .halt s = .next (s.setRun .halted) := rfl
@[simp] theorem exec_cls : exec .cls s = .next s.clearFb := rfl
@[simp] theorem exec_jp : exec (.jp nnn) s = .next (s.setPc (addressOf nnn)) := rfl
@[simp] theorem exec_seImm : exec (.seImm x kk) s = .next (skipIf (s.reg x == kk) s) := rfl
@[simp] theorem exec_sneImm : exec (.sneImm x kk) s = .next (skipIf (s.reg x != kk) s) := rfl
@[simp] theorem exec_seReg : exec (.seReg x y) s = .next (skipIf (s.reg x == s.reg y) s) := rfl
@[simp] theorem exec_sneReg : exec (.sneReg x y) s = .next (skipIf (s.reg x != s.reg y) s) := rfl
@[simp] theorem exec_jpV0 : exec (.jpV0 nnn) s = .next (s.setPc (indexedAddress s nnn)) := rfl
@[simp] theorem exec_ldImm : exec (.ldImm x kk) s = .next (s.setReg x kk) := rfl
@[simp] theorem exec_addImm : exec (.addImm x kk) s = .next (s.setReg x (s.reg x + kk)) := rfl
@[simp] theorem exec_ldReg : exec (.ldReg x y) s = .next (s.setReg x (s.reg y)) := rfl
@[simp] theorem exec_orReg : exec (.orReg x y) s = .next (s.setReg x (s.reg x ||| s.reg y)) := rfl
@[simp] theorem exec_andReg : exec (.andReg x y) s = .next (s.setReg x (s.reg x &&& s.reg y)) := rfl
@[simp] theorem exec_xorReg : exec (.xorReg x y) s = .next (s.setReg x (s.reg x ^^^ s.reg y)) := rfl
@[simp] theorem exec_addReg : exec (.addReg x y) s = .next (flagThenResult x
    (fun s => carryFlag (s.reg x) (s.reg y)) (fun s => s.reg x + s.reg y) s) := rfl
@[simp] theorem exec_subReg : exec (.subReg x y) s = .next (flagThenResult x
    (fun s => noBorrowFlag (s.reg x) (s.reg y)) (fun s => s.reg x - s.reg y) s) := rfl
@[simp] theorem exec_shr : exec (.shr x y) s = .next (flagThenResult x
    (fun s => shiftRightFlag (s.reg (shiftSourceReg s.cfg x y)))
    (fun s => s.reg (shiftSourceReg s.cfg x y) >>> 1) s) := rfl
@[simp] theorem exec_subn : exec (.subn x y) s = .next (flagThenResult x
    (fun s => noBorrowFlag (s.reg y) (s.reg x)) (fun s => s.reg y - s.reg x) s) := rfl
@[simp] theorem exec_shl : exec (.shl x y) s = .next (flagThenResult x
    (fun s => shiftLeftFlag (s.reg (shiftSourceReg s.cfg x y)))
    (fun s => s.reg (shiftSourceReg s.cfg x y) <<< 1) s) := rfl
@[simp] theorem exec_ldI : exec (.ldI nnn) s = .next (s.setI (addressOf nnn)) := rfl
@[simp] theorem exec_rnd : exec (.rnd x kk) s = .next (s.setReg x (s.rand &&& kk)) := rfl
@[simp] theorem exec_ldVxDt : exec (.ldVxDt x) s = .next (s.setReg x s.dt) := rfl
@[simp] theorem exec_ldVxK : exec (.ldVxK x) s = .next (s.setRun (.awaitingKey x)) := rfl
@[simp] theorem exec_ldDtVx : exec (.ldDtVx x) s = .next (s.setDt (s.reg x)) := rfl
@[simp] theorem exec_ldStVx : exec (.ldStVx x) s = .next (s.setSt (s.reg x)) := rfl
@[simp] theorem exec_addIVx : exec (.addIVx x) s = .next (s.setI (s.i + (s.reg x).setWidth 16)) := rfl
@[simp] theorem exec_ldFVx : exec (.ldFVx x) s = .next (s.setI (glyphAddress (s.reg x))) := rfl

/-! ## Meanings that can fault -/

variable {s x y}

theorem exec_ret_of_pos (h : 0 < s.sp.val) : exec .ret s =
    .next { s with pc := s.stack[s.sp.val - 1], sp := ⟨s.sp.val - 1, by omega⟩ } := by
  show finish _ = _
  rw [pop_of_pos h]; rfl

theorem exec_ret_of_zero (h : s.sp.val = 0) : exec .ret s = .fault .stackUnderflow := by
  show finish _ = _
  rw [pop_of_zero h]; rfl

theorem exec_call_of_lt (h : s.sp.val < 16) : exec (.call nnn) s =
    .next { s with stack := s.stack.set s.sp.val s.pc, sp := ⟨s.sp.val + 1, by omega⟩,
                   pc := addressOf nnn } := by
  show finish _ = _
  rw [push_of_lt _ h]; rfl

theorem exec_call_of_full (h : s.sp.val = 16) : exec (.call nnn) s = .fault .stackOverflow := by
  show finish _ = _
  rw [push_of_full _ h]; rfl

theorem readKey_of_lt {code : Byte} (h : code.toNat < 16) : readKey s code = .ok s.key[code.toNat] := by
  simp [readKey, h]

theorem readKey_of_ge {code : Byte} (h : 16 ≤ code.toNat) : readKey s code = .error (.invalidKeyCode code) := by
  simp [readKey, Nat.not_lt.mpr h]

theorem exec_skp_of_lt (h : (s.reg x).toNat < 16) :
    exec (.skp x) s = .next (skipIf s.key[(s.reg x).toNat] s) := by
  show finish _ = _
  rw [readKey_of_lt h]; rfl

theorem exec_skp_of_ge (h : 16 ≤ (s.reg x).toNat) : exec (.skp x) s = .fault (.invalidKeyCode (s.reg x)) := by
  show finish _ = _
  rw [readKey_of_ge h]; rfl

theorem exec_sknp_of_lt (h : (s.reg x).toNat < 16) :
    exec (.sknp x) s = .next (skipIf (!s.key[(s.reg x).toNat]) s) := by
  show finish _ = _
  rw [readKey_of_lt h]; rfl

theorem exec_sknp_of_ge (h : 16 ≤ (s.reg x).toNat) : exec (.sknp x) s = .fault (.invalidKeyCode (s.reg x)) := by
  show finish _ = _
  rw [readKey_of_ge h]; rfl

/-- The three bytes of Fx33, written one after the other (R153). -/
def bcdMem (s : State) (b : Byte) : Memory :=
  Memory.write s.cfg (Memory.write s.cfg (Memory.write s.cfg s.mem s.i.toNat (bcdDigits b).1)
    (s.i.toNat + 1) (bcdDigits b).2.1) (s.i.toNat + 2) (bcdDigits b).2.2

theorem exec_ldBVx_of_lt (h : s.i.toNat < 4094) :
    exec (.ldBVx x) s = .next { s with mem := bcdMem s (s.reg x) } := by
  show finish (do
    let u ← s.writeByte (s.i.toNat + 0) (bcdDigits (s.reg x)).1
    let u ← u.writeByte (u.i.toNat + 1) (bcdDigits (s.reg x)).2.1
    u.writeByte (u.i.toNat + 2) (bcdDigits (s.reg x)).2.2) = _
  rw [writeByte_of_lt _ (by omega), except_ok_bind]
  rw [writeByte_of_lt _ (by show s.i.toNat + 1 < 4096; omega), except_ok_bind]
  rw [writeByte_of_lt _ (by show s.i.toNat + 2 < 4096; omega)]
  rfl

theorem exec_ldBVx_of_ge (h : 4094 ≤ s.i.toNat) :
    exec (.ldBVx x) s = .fault (.addressOutOfRange (max s.i.toNat 4096) 4096) := by
  show finish (do
    let u ← s.writeByte (s.i.toNat + 0) (bcdDigits (s.reg x)).1
    let u ← u.writeByte (u.i.toNat + 1) (bcdDigits (s.reg x)).2.1
    u.writeByte (u.i.toNat + 2) (bcdDigits (s.reg x)).2.2) = _
  by_cases h0 : s.i.toNat < 4096
  · rw [writeByte_of_lt _ (by omega), except_ok_bind]
    by_cases h1 : s.i.toNat + 1 < 4096
    · rw [writeByte_of_lt _ (by show s.i.toNat + 1 < 4096; omega), except_ok_bind]
      rw [writeByte_of_ge _ (by show 4096 ≤ s.i.toNat + 2; omega)]
      show Host.Outcome.fault (Fault.addressOutOfRange (s.i.toNat + 2) 4096) = _
      congr 2; omega
    · rw [writeByte_of_ge _ (by show 4096 ≤ s.i.toNat + 1; omega)]
      show Host.Outcome.fault (Fault.addressOutOfRange (s.i.toNat + 1) 4096) = _
      congr 2; omega
  · rw [writeByte_of_ge _ (by omega)]
    show Host.Outcome.fault (Fault.addressOutOfRange (s.i.toNat + 0) 4096) = _
    congr 2; omega

theorem exec_ldMemVx_ok (h : s.i.toNat + x.toNat < 4096) :
    ∃ t, exec (.ldMemVx x) s = .next t ∧ t = { s with mem := t.mem } ∧
      (∀ a, (a < s.i.toNat ∨ s.i.toNat + x.toNat < a) → t.byteAt a = s.byteAt a) ∧
      (Memory.wf s.cfg s.mem = true → Memory.wf t.cfg t.mem = true ∧
        ∀ z : Nibble, z.toNat ≤ x.toNat → t.byteAt (s.i.toNat + z.toNat) = s.reg z) := by
  have := x.isLt
  obtain ⟨t, ht, e, hout, hin⟩ := storeRegs_ok (x.toNat + 1) 0 s (by omega) (by omega)
  refine ⟨t, ?_, e, fun a ha => hout a (by omega), fun w => ⟨(hin w).1, fun z hz => ?_⟩⟩
  · show finish _ = _
    rw [ht]; rfl
  · have := (hin w).2 z.toNat (by omega) (by omega)
    rwa [BitVec.ofNat_toNat, BitVec.setWidth_eq] at this

theorem exec_ldMemVx_fault (h : 4096 ≤ s.i.toNat + x.toNat) :
    exec (.ldMemVx x) s = .fault (.addressOutOfRange (max s.i.toNat 4096) 4096) := by
  show finish _ = _
  rw [storeRegs_error (x.toNat + 1) 0 s (by omega) (by omega)]; rfl

theorem exec_ldVxMem_ok (h : s.i.toNat + x.toNat < 4096) :
    ∃ t, exec (.ldVxMem x) s = .next t ∧ t = { s with v := t.v } ∧
      ∀ z : Nibble, t.reg z = if z.toNat ≤ x.toNat then s.byteAt (s.i.toNat + z.toNat) else s.reg z := by
  have := x.isLt
  obtain ⟨t, ht, e, hr⟩ := loadRegs_ok (x.toNat + 1) 0 s (by omega) (by omega)
  refine ⟨t, ?_, e, fun z => ?_⟩
  · show finish _ = _
    rw [ht]; rfl
  · rw [hr z]
    by_cases q : z.toNat ≤ x.toNat
    · rw [if_pos (by omega), if_pos q]
    · rw [if_neg (by omega), if_neg q]

theorem exec_ldVxMem_fault (h : 4096 ≤ s.i.toNat + x.toNat) :
    exec (.ldVxMem x) s = .fault (.addressOutOfRange (max s.i.toNat 4096) 4096) := by
  show finish _ = _
  rw [loadRegs_error (x.toNat + 1) 0 s (by omega) (by omega)]; rfl

/-- Everything a sprite draw does when its bytes lie in memory (R173). -/
theorem exec_drw_ok {n : Nat} (hn : n ≤ 32) (h : n = 0 ∨ s.i.toNat + n ≤ 4096) :
    ∃ t, exec (.drw x y n) s = .next t ∧ t = { s with v := t.v, fb := t.fb } ∧
      (∀ z, z ≠ vf → t.reg z = s.reg z) ∧
      (∀ c r, SpriteHits s (s.reg x) (s.reg y) 0 n c r → t.pixel c r = !s.pixel c r) ∧
      (∀ c r, ¬ SpriteHits s (s.reg x) (s.reg y) 0 n c r → t.pixel c r = s.pixel c r) ∧
      (SpriteCollides s (s.reg x) (s.reg y) 0 n → t.reg vf = 1) ∧
      (¬ SpriteCollides s (s.reg x) (s.reg y) 0 n → t.reg vf = 0) := by
  obtain ⟨t, ht, e, hz, hin, hout, hc, hd⟩ := drawRows_ok (s.reg x) (s.reg y) n 0 (s.setReg vf 0)
    (by omega) (by simp only [setReg_i]; omega)
  refine ⟨t, ?_, ?_, ?_, hin, hout, ?_, ?_⟩
  · show finish _ = _
    rw [ht]; rfl
  · rw [e]; rfl
  · intro z hne; rw [hz z hne, reg_setReg_of_ne _ _ hne]
  · intro coll; rw [hc coll, reg_setReg_self]; rfl
  · intro miss; rw [hd miss, reg_setReg_self]

/-- A draw that goes on writes VF and the framebuffer alone, whatever its row count. -/
theorem exec_drw_frame {n : Nat} {t : State} (h : exec (.drw x y n) s = .next t) :
    t = { s with v := t.v, fb := t.fb } ∧ ∀ z, z ≠ vf → t.reg z = s.reg z := by
  change finish (drawRows (s.reg x) (s.reg y) n 0 (s.setReg vf 0)) = _ at h
  cases hd : drawRows (s.reg x) (s.reg y) n 0 (s.setReg vf 0) with
  | error f => rw [hd] at h; cases h
  | ok u =>
    rw [hd] at h; cases h
    obtain ⟨e, hz⟩ := drawRows_frame _ _ _ _ _ _ hd
    exact ⟨e, fun z hne => by rw [hz z hne, reg_setReg_of_ne _ _ hne]⟩

theorem exec_drw_fault {n : Nat} (hn : 0 < n) (h : 4096 < s.i.toNat + n) :
    exec (.drw x y n) s = .fault (.addressOutOfRange (max s.i.toNat 4096) 4096) := by
  show finish _ = _
  rw [drawRows_error (s.reg x) (s.reg y) n 0 (s.setReg vf 0) hn (by simp only [setReg_i]; omega)]; rfl

end Sys2Proof.Machine
end

