-- ==== Sys2Proof/Laws/PerInstr.lean ====
section
/-! SUPPORT. Lemmas made per instruction (LAWS.json): decoding an encoded well-formed instruction
gives it back. -/

namespace Sys2Proof.Laws.EncodeDecode

/-- A well-formed instruction survives the round trip through its word (R83). -/
def Statement (i : Instr) : Prop := i.wellFormed = true → decode (encode i) = .ok i

theorem halt : Statement .halt := fun _ => by decide

theorem cls : Statement .cls := fun _ => by decide

theorem ret : Statement .ret := fun _ => by decide

theorem jp (nnn : Address) : Statement (.jp nnn) := fun _ => by
  simp [encode, decode]

theorem call (nnn : Address) : Statement (.call nnn) := fun _ => by
  simp [encode, decode]

theorem seImm (x : Nibble) (kk : Byte) : Statement (.seImm x kk) := fun _ => by
  simp [encode, decode]

theorem sneImm (x : Nibble) (kk : Byte) : Statement (.sneImm x kk) := fun _ => by
  simp [encode, decode]

theorem seReg (x y : Nibble) : Statement (.seReg x y) := fun _ => by
  simp [encode, decode, decodeIfN0]

theorem ldImm (x : Nibble) (kk : Byte) : Statement (.ldImm x kk) := fun _ => by
  simp [encode, decode]

theorem addImm (x : Nibble) (kk : Byte) : Statement (.addImm x kk) := fun _ => by
  simp [encode, decode]

theorem ldReg (x y : Nibble) : Statement (.ldReg x y) := fun _ => by
  simp [encode, decode, decodeGroup8]

theorem orReg (x y : Nibble) : Statement (.orReg x y) := fun _ => by
  simp [encode, decode, decodeGroup8]

theorem andReg (x y : Nibble) : Statement (.andReg x y) := fun _ => by
  simp [encode, decode, decodeGroup8]

theorem xorReg (x y : Nibble) : Statement (.xorReg x y) := fun _ => by
  simp [encode, decode, decodeGroup8]

theorem addReg (x y : Nibble) : Statement (.addReg x y) := fun _ => by
  simp [encode, decode, decodeGroup8]

theorem subReg (x y : Nibble) : Statement (.subReg x y) := fun _ => by
  simp [encode, decode, decodeGroup8]

theorem shr (x y : Nibble) : Statement (.shr x y) := fun _ => by
  simp [encode, decode, decodeGroup8]

theorem subn (x y : Nibble) : Statement (.subn x y) := fun _ => by
  simp [encode, decode, decodeGroup8]

theorem shl (x y : Nibble) : Statement (.shl x y) := fun _ => by
  simp [encode, decode, decodeGroup8]

theorem sneReg (x y : Nibble) : Statement (.sneReg x y) := fun _ => by
  simp [encode, decode, decodeIfN0]

theorem ldI (nnn : Address) : Statement (.ldI nnn) := fun _ => by
  simp [encode, decode]

theorem jpV0 (nnn : Address) : Statement (.jpV0 nnn) := fun _ => by
  simp [encode, decode]

theorem rnd (x : Nibble) (kk : Byte) : Statement (.rnd x kk) := fun _ => by
  simp [encode, decode]

theorem drw (x y : Nibble) (n : Nat) : Statement (.drw x y n) := fun h => by
  have h : n < 16 := of_decide_eq_true h
  simp [encode, decode, Nat.mod_eq_of_lt h]

theorem skp (x : Nibble) : Statement (.skp x) := fun _ => by
  simp [encode, decode, decodeGroupE]

theorem sknp (x : Nibble) : Statement (.sknp x) := fun _ => by
  simp [encode, decode, decodeGroupE]

theorem ldVxDt (x : Nibble) : Statement (.ldVxDt x) := fun _ => by
  simp [encode, decode, decodeGroupF]

theorem ldVxK (x : Nibble) : Statement (.ldVxK x) := fun _ => by
  simp [encode, decode, decodeGroupF]

theorem ldDtVx (x : Nibble) : Statement (.ldDtVx x) := fun _ => by
  simp [encode, decode, decodeGroupF]

theorem ldStVx (x : Nibble) : Statement (.ldStVx x) := fun _ => by
  simp [encode, decode, decodeGroupF]

theorem addIVx (x : Nibble) : Statement (.addIVx x) := fun _ => by
  simp [encode, decode, decodeGroupF]

theorem ldFVx (x : Nibble) : Statement (.ldFVx x) := fun _ => by
  simp [encode, decode, decodeGroupF]

theorem ldBVx (x : Nibble) : Statement (.ldBVx x) := fun _ => by
  simp [encode, decode, decodeGroupF]

theorem ldMemVx (x : Nibble) : Statement (.ldMemVx x) := fun _ => by
  simp [encode, decode, decodeGroupF]

theorem ldVxMem (x : Nibble) : Statement (.ldVxMem x) := fun _ => by
  simp [encode, decode, decodeGroupF]

end Sys2Proof.Laws.EncodeDecode
end

