-- ==== Sys2Proof/Laws/Step.lean ====
section
/-! SUPPORT. What one tick can do: its cases, from which every fact about a step is derived. -/

namespace Sys2Proof.Machine

/-! ## Poll (R241, R242) -/

theorem keyWait_of_not_awaiting {s : State} (downs : List Nibble) (h : ∀ x, s.run ≠ .awaitingKey x) :
    keyWait downs s = s := by
  unfold keyWait
  cases hr : s.run with
  | awaitingKey x => exact absurd hr (h x)
  | running => rfl
  | halted => rfl
  | faulted f => rfl

theorem keyWait_none {s : State} : keyWait [] s = s := by
  unfold keyWait
  cases s.run <;> rfl

theorem keyWait_wake {s : State} {x : Nibble} (k : Nibble) (ks : List Nibble) (h : s.run = .awaitingKey x) :
    keyWait (k :: ks) s = (s.setReg x (k.setWidth 8)).setRun .running := by
  simp [keyWait, h]

/-- The poll writes the key flags, the rand latch, the input queue, and at a wake-up one register
and the run state. -/
theorem poll_eq (inp : TickInput) (s : State) : poll inp s = { s with
    key := inp.keys, rand := inp.rand, inputs := s.inputs.tail, tick := s.tick + 1,
    v := (poll inp s).v, run := (poll inp s).run } := by
  unfold poll keyWait
  cases hr : s.run <;> cases hd : inp.downs <;> simp [takeInput, State.setKeys, State.setReg, State.setRun, hr]

theorem poll_running {s : State} (inp : TickInput) (h : s.run = .running) :
    poll inp s = (takeInput inp s).setKeys inp.keys :=
  keyWait_of_not_awaiting _ (fun x => by simp [h])

/-- What the run state is after a poll (R242). -/
theorem poll_run_cases {s : State} (inp : TickInput) (h : CanTick s) :
    (poll inp s).run = .running ∨ (∃ x, s.run = .awaitingKey x ∧ inp.downs = [] ∧
      poll inp s = (takeInput inp s).setKeys inp.keys ∧ (poll inp s).run = .awaitingKey x) := by
  rcases h with h | ⟨x, h⟩
  · left; rw [poll_running inp h]; simpa using h
  · cases hd : inp.downs with
    | nil =>
      right
      have e : poll inp s = (takeInput inp s).setKeys inp.keys := by unfold poll; rw [hd, keyWait_none]
      exact ⟨x, h, rfl, e, by rw [e]; simpa using h⟩
    | cons k ks =>
      left
      unfold poll
      rw [hd, keyWait_wake (x := x) k ks (by simpa using h)]; rfl

/-! ## Fetch (R64) -/

theorem fetch_ok {s : State} (h : s.pc.toNat + 1 < 4096) :
    fetch s = .ok (joinBytes (s.byteAt s.pc.toNat) (s.byteAt (s.pc.toNat + 1))) := by
  unfold fetch
  rw [readByte_of_lt (by omega), except_ok_bind, readByte_of_lt h, except_ok_bind]; rfl

theorem fetch_last {s : State} (h : s.pc.toNat = 4095) : fetch s = .error (.addressOutOfRange 4096 4096) := by
  unfold fetch
  rw [readByte_of_lt (by omega), except_ok_bind, readByte_of_ge (by omega), except_error_bind, h]

theorem fetch_beyond {s : State} (h : 4096 ≤ s.pc.toNat) :
    fetch s = .error (.addressOutOfRange s.pc.toNat 4096) := by
  unfold fetch
  rw [readByte_of_ge h, except_error_bind]

/-- A fetch that succeeds is of two bytes in memory. -/
theorem fetch_eq_ok {s : State} {op : Word} (h : fetch s = .ok op) :
    s.pc.toNat + 1 < 4096 ∧ op = joinBytes (s.byteAt s.pc.toNat) (s.byteAt (s.pc.toNat + 1)) := by
  by_cases q : s.pc.toNat + 1 < 4096
  · rw [fetch_ok q] at h
    exact ⟨q, (Except.ok.inj h).symm⟩
  · by_cases q' : s.pc.toNat = 4095
    · rw [fetch_last q'] at h; simp at h
    · rw [fetch_beyond (by omega)] at h; simp at h

/-! ## A step -/

theorem step_of_canTick {s : State} (h : CanTick s) : step s = tickWith s.nextInput s := by
  rcases h with h | ⟨x, h⟩ <;> simp [step, tickOnce, h]

theorem step_of_not_canTick {s : State} (h : ¬ CanTick s) : step s = .refused .noTick := by
  unfold step tickOnce
  cases hr : s.run with
  | running => exact absurd (Or.inl hr) h
  | awaitingKey x => exact absurd (Or.inr ⟨x, hr⟩) h
  | halted => rfl
  | faulted f => rfl

theorem executePhase_running {p : State} (h : p.run = .running) : executePhase p = executeOne p := by
  simp [executePhase, h]

theorem executeOne_ok {p : State} {op : Word} {i : Instr} (hf : fetch p = .ok op) (hd : decode op = .ok i) :
    executeOne p = exec i p.advancePc := by
  simp [executeOne, hf, hd]

/-- A tick of a key wait without a key-down: no instruction, then the end of the tick (R244). -/
theorem step_waiting {s : State} {x : Nibble} (hr : s.run = .awaitingKey x) (hd : s.nextInput.downs = []) :
    step s = .next (endTick s.nextInput ((takeInput s.nextInput s).setKeys s.nextInput.keys)) := by
  have hp : poll s.nextInput s = (takeInput s.nextInput s).setKeys s.nextInput.keys := by
    unfold poll; rw [hd, keyWait_none]
  have hr' : ((takeInput s.nextInput s).setKeys s.nextInput.keys).run = .awaitingKey x := hr
  have he : executePhase ((takeInput s.nextInput s).setKeys s.nextInput.keys)
      = .next ((takeInput s.nextInput s).setKeys s.nextInput.keys) := by unfold executePhase; rw [hr']
  rw [step_of_canTick (Or.inr ⟨x, hr⟩), tickWith, hp, he]; rfl

/-- Everything a step that goes on does: a poll, then either one instruction or none, then the end of
the tick. -/
theorem step_next_cases {s t : State} (h : step s = .next t) :
    CanTick s ∧
    ((∃ op i u, (poll s.nextInput s).run = .running ∧ fetch (poll s.nextInput s) = .ok op ∧
        decode op = .ok i ∧ exec i (poll s.nextInput s).advancePc = .next u ∧ t = endTick s.nextInput u) ∨
     (∃ x, s.run = .awaitingKey x ∧ s.nextInput.downs = [] ∧
        t = endTick s.nextInput ((takeInput s.nextInput s).setKeys s.nextInput.keys))) := by
  by_cases hc : CanTick s
  · refine ⟨hc, ?_⟩
    rw [step_of_canTick hc, tickWith, afterNext_eq_next] at h
    obtain ⟨u, hu, ht⟩ := h
    rcases poll_run_cases s.nextInput hc with hr | ⟨x, hx, hdn, hp, hr⟩
    · left
      rw [executePhase_running hr, executeOne] at hu
      cases hf : fetch (poll s.nextInput s) with
      | error f => simp [hf] at hu
      | ok op =>
        cases hd : decode op with
        | error e => simp [hf, hd] at hu
        | ok i => exact ⟨op, i, u, hr, rfl, hd, by simpa [hf, hd] using hu, ht⟩
    · right
      have : executePhase (poll s.nextInput s) = .next (poll s.nextInput s) := by simp [executePhase, hr]
      rw [this] at hu
      refine ⟨x, hx, hdn, ?_⟩
      rw [ht, ← Host.Outcome.next.inj hu, hp]
  · rw [step_of_not_canTick hc] at h; simp at h

end Sys2Proof.Machine
end

