-- ==== Sys2Proof/Tests/Slice0.lean ====
section
/-! SUPPORT. Tests. Expected results are from spec/95_test_vectors.md (the vector's id stands in the
docstring) or worked out by hand from the rule named; the words of the decode tests are written out
from the patterns of spec/30_encoding.md R87. The witnesses at the end meet the hypotheses of the
obligations. -/

namespace Sys2Proof.Tests

open Sys2Proof Sys2Proof.Machine

/-! ## Helpers -/

/-- A configuration with a period of 10 units. -/
def cfg10 : Config := { Config.standard with unitsPerPeriod := 10 }

/-- The same with SHIFT_SOURCE = Vx. -/
def cfgVx : Config := { cfg10 with shiftSource := .vx }

/-- The state of the vectors: reset, PC past an instruction at 0x200. -/
def start : State := { State.zeroed cfg10 with pc := 0x202 }

/-- The host's input where a vector names none. -/
def idle : TickInput := { keys := Vector.replicate 16 false, downs := [], elapsed := 0, quit := false, rand := 0 }

/-- A state at 0x200 with bytes of memory there and the next tick's input. -/
def ready (bytes : List Byte) (inp : TickInput) : State :=
  { State.zeroed cfg10 with mem := copyBytes cfg10 [] 0x200 bytes, inputs := [inp] }

/-- Registers set one after the other. -/
def withRegs (s : State) (l : List (Nibble × Byte)) : State := l.foldl (fun s p => s.setReg p.1 p.2) s

/-- Bytes of memory from an address on. -/
def withBytes (s : State) (a : Nat) (l : List Byte) : State := { s with mem := copyBytes s.cfg s.mem a l }

/-- The outcome is a next state with a property. -/
def nextSat (o : Host.Outcome State Fault Refusal) (p : State → Bool) : Bool :=
  match o with
  | .next t => p t
  | .fault _ => false
  | .refused _ => false

/-- The outcome is this fault. -/
def faultIs (o : Host.Outcome State Fault Refusal) (f : Fault) : Bool :=
  match o with
  | .next _ => false
  | .fault g => decide (g = f)
  | .refused _ => false

/-- The outcome of a second operation on the first one's next state. -/
def andThen (o : Host.Outcome State Fault Refusal) (f : State → Host.Outcome State Fault Refusal) :
    Host.Outcome State Fault Refusal :=
  match o with
  | .next t => f t
  | .fault g => .fault g
  | .refused r => .refused r

/-- The list of set pixels, column first. -/
def lit (s : State) : List (Nat × Nat) :=
  (List.finRange 64).flatMap fun c => (List.finRange 32).filterMap fun r =>
    if s.pixel c r then some (c.val, r.val) else none

/-! ## Well-formedness and decoding -/

/-- The one check: a row count of 16 is refused, 15 and 0 pass. -/
theorem test_wellFormed_row_count : (Instr.drw 0 0 16).wellFormed = false ∧
    (Instr.drw 0 0 15).wellFormed = true ∧ (Instr.drw 0 0 0).wellFormed = true := by decide

theorem test_decode_control : [0x0000, 0x00E0, 0x00EE, 0x1ABC, 0x2ABC, 0x3A5C, 0x4A5C, 0x5AB0, 0x9AB0, 0xBABC].map
    (decodeTableWord 16) = [some .halt, some .cls, some .ret, some (.jp 0xABC), some (.call 0xABC),
      some (.seImm 0xA 0x5C), some (.sneImm 0xA 0x5C), some (.seReg 0xA 0xB), some (.sneReg 0xA 0xB),
      some (.jpV0 0xABC)] := by decide

theorem test_decode_arithmetic : [0x6A5C, 0x7A5C, 0x8AB0, 0x8AB1, 0x8AB2, 0x8AB3, 0x8AB4, 0x8AB5, 0x8AB6, 0x8AB7,
    0x8ABE, 0xCA5C].map (decodeTableWord 16) = [some (.ldImm 0xA 0x5C), some (.addImm 0xA 0x5C), some (.ldReg 0xA 0xB),
      some (.orReg 0xA 0xB), some (.andReg 0xA 0xB), some (.xorReg 0xA 0xB), some (.addReg 0xA 0xB),
      some (.subReg 0xA 0xB), some (.shr 0xA 0xB), some (.subn 0xA 0xB), some (.shl 0xA 0xB),
      some (.rnd 0xA 0x5C)] := by decide

theorem test_decode_memory_display : [0xAABC, 0xFA1E, 0xFA29, 0xFA33, 0xFA55, 0xFA65, 0xDABC].map
    (decodeTableWord 16) = [some (.ldI 0xABC), some (.addIVx 0xA), some (.ldFVx 0xA), some (.ldBVx 0xA),
      some (.ldMemVx 0xA), some (.ldVxMem 0xA), some (.drw 0xA 0xB 0xC)] := by decide

theorem test_decode_input_timers : [0xEA9E, 0xEAA1, 0xFA07, 0xFA0A, 0xFA15, 0xFA18].map
    (decodeTableWord 16) = [some (.skp 0xA), some (.sknp 0xA), some (.ldVxDt 0xA), some (.ldVxK 0xA),
      some (.ldDtVx 0xA), some (.ldStVx 0xA)] := by decide

/-- E-4 to E-8. -/
theorem test_illegal_words : [0x01E0, 0x0123, 0x0FFF, 0x00FF, 0x00FD, 0x00C5, 0x5121, 0x912F, 0x8008, 0x8009,
    0x800A, 0x800B, 0x800C, 0x800D, 0x800F, 0xE000, 0xE19F, 0xE0A2, 0xF000, 0xF0FF, 0xF130, 0xF175,
    0xF185, 0xF00B].all (fun w => decodeTableWord 16 w == none) = true := by decide

/-- No two rows of the map share a word (R87). -/
theorem test_rows_disjoint : opcodeMap.Pairwise fun r q => r.fixed &&& (r.mask &&& q.mask) ≠ q.fixed &&& (r.mask &&& q.mask) := by
  decide

/-! ## Control flow -/

/-- C-1. -/
theorem test_halt : nextSat (exec .halt start) (fun t => t.run == .halted && t.pc == 0x202) = true := by decide
/-- C-2, C-3. -/
theorem test_jp : nextSat (exec (.jp 0xABC) start) (fun t => t.pc == 0xABC) = true := by decide
/-- C-6: the last free entry. -/
theorem test_call_last : nextSat (exec (.call 0x300) { start with sp := 15 })
    (fun t => t.sp == 16 && t.stack[15] == 0x202 && t.pc == 0x300) = true := by decide
/-- C-7. -/
theorem test_call_full : faultIs (exec (.call 0x300) { start with sp := 16 }) .stackOverflow = true := by decide
/-- C-8. -/
theorem test_ret : nextSat (exec .ret { start with sp := 1, stack := start.stack.set 0 0x45A })
    (fun t => t.sp == 0 && t.pc == 0x45A && t.stack[0] == 0x45A) = true := by decide
/-- C-9. -/
theorem test_ret_empty : faultIs (exec .ret start) .stackUnderflow = true := by decide
/-- C-10, C-11. -/
theorem test_seImm : (nextSat (exec (.seImm 3 0x10) (start.setReg 3 0x10)) (fun t => t.pc == 0x204) &&
    nextSat (exec (.seImm 3 0x11) (start.setReg 3 0x10)) (fun t => t.pc == 0x202)) = true := by decide
/-- C-12. -/
theorem test_sneImm : (nextSat (exec (.sneImm 3 0x10) (start.setReg 3 0x10)) (fun t => t.pc == 0x202) &&
    nextSat (exec (.sneImm 3 0x11) (start.setReg 3 0x10)) (fun t => t.pc == 0x204)) = true := by decide
/-- C-13, and unequal registers. -/
theorem test_seReg : (nextSat (exec (.seReg 1 2) (withRegs start [(1, 7), (2, 7)])) (fun t => t.pc == 0x204) &&
    nextSat (exec (.seReg 1 2) (withRegs start [(1, 7), (2, 8)])) (fun t => t.pc == 0x202)) = true := by decide
/-- C-15, C-16. -/
theorem test_sneReg : (nextSat (exec (.sneReg 1 2) (withRegs start [(1, 7), (2, 8)])) (fun t => t.pc == 0x204) &&
    nextSat (exec (.sneReg 4 4) start) (fun t => t.pc == 0x202)) = true := by decide
/-- C-19: not masked to 12 bits. -/
theorem test_jpV0 : nextSat (exec (.jpV0 0xFFF) (start.setReg 0 0xFF)) (fun t => t.pc == 0x10FE) = true := by decide
/-- C-20: V0, not Vx. -/
theorem test_jpV0_uses_v0 : nextSat (exec (.jpV0 0x100) (start.setReg 5 0xFF)) (fun t => t.pc == 0x100) = true := by decide

/-! ## Loads, arithmetic, logic -/

/-- A-1. -/
theorem test_ldImm : nextSat (exec (.ldImm 0xA 0x42) start) (fun t => t.reg 0xA == 0x42) = true := by decide
/-- A-2: no carry. -/
theorem test_addImm : nextSat (exec (.addImm 0 0x01) (withRegs start [(0, 0xFF), (0xF, 7)]))
    (fun t => t.reg 0 == 0 && t.reg 0xF == 7) = true := by decide
/-- A-5. -/
theorem test_ldReg : nextSat (exec (.ldReg 1 2) (start.setReg 2 0x33)) (fun t => t.reg 1 == 0x33) = true := by decide
/-- A-6: VF untouched. -/
theorem test_orReg : nextSat (exec (.orReg 1 2) (withRegs start [(1, 0x0F), (2, 0xF0), (0xF, 9)]))
    (fun t => t.reg 1 == 0xFF && t.reg 0xF == 9) = true := by decide
/-- A-7. -/
theorem test_andReg : nextSat (exec (.andReg 1 2) (withRegs start [(1, 0x3C), (2, 0x0F), (0xF, 9)]))
    (fun t => t.reg 1 == 0x0C && t.reg 0xF == 9) = true := by decide
/-- A-8. -/
theorem test_xorReg : nextSat (exec (.xorReg 1 2) (withRegs start [(1, 0x3C), (2, 0x0F)]))
    (fun t => t.reg 1 == 0x33) = true := by decide
/-- S2. -/
theorem test_addReg : nextSat (exec (.addReg 1 2) (withRegs start [(1, 0xFF), (2, 1)]))
    (fun t => t.reg 1 == 0 && t.reg 0xF == 1) = true := by decide
/-- A-14: the carry from the old VF, the sum from the new one. -/
theorem test_addReg_vf_source : nextSat (exec (.addReg 1 0xF) (withRegs start [(1, 0xFF), (0xF, 1)]))
    (fun t => t.reg 1 == 0 && t.reg 0xF == 1) = true := by decide
/-- A-18: strictly greater. -/
theorem test_subReg_equal : nextSat (exec (.subReg 1 2) (withRegs start [(1, 5), (2, 5)]))
    (fun t => t.reg 1 == 0 && t.reg 0xF == 0) = true := by decide
/-- A-20. -/
theorem test_subReg_vf_dest : nextSat (exec (.subReg 0xF 2) (withRegs start [(0xF, 5), (2, 3)]))
    (fun t => t.reg 0xF == 0xFE) = true := by decide
/-- S4: the source is Vy. -/
theorem test_shr : nextSat (exec (.shr 1 2) (withRegs start [(1, 0x55), (2, 3)]))
    (fun t => t.reg 1 == 1 && t.reg 0xF == 1 && t.reg 2 == 3) = true := by decide
/-- A-40, A-42: the source is Vx. -/
theorem test_shr_vx : (nextSat (exec (.shr 1 2) (withRegs { start with cfg := cfgVx } [(1, 3), (2, 0xFF)]))
      (fun t => t.reg 1 == 1 && t.reg 0xF == 1) &&
    nextSat (exec (.shr 0xF 0) (withRegs { start with cfg := cfgVx } [(0xF, 3)])) (fun t => t.reg 0xF == 0)) = true := by
  decide
/-- A-30. -/
theorem test_subn : nextSat (exec (.subn 1 2) (withRegs start [(1, 5), (2, 2)]))
    (fun t => t.reg 1 == 0xFD && t.reg 0xF == 0) = true := by decide
/-- A-33. -/
theorem test_subn_vf_source : nextSat (exec (.subn 1 0xF) (withRegs start [(1, 2), (0xF, 5)]))
    (fun t => t.reg 1 == 0xFF && t.reg 0xF == 1) = true := by decide
/-- S5. -/
theorem test_shl : nextSat (exec (.shl 1 2) (withRegs start [(2, 0x81)]))
    (fun t => t.reg 1 == 2 && t.reg 0xF == 1) = true := by decide
/-- A-41, A-43. -/
theorem test_shl_vx : (nextSat (exec (.shl 1 2) (withRegs { start with cfg := cfgVx } [(1, 0x81)]))
      (fun t => t.reg 1 == 2 && t.reg 0xF == 1) &&
    nextSat (exec (.shl 0xF 0) (withRegs { start with cfg := cfgVx } [(0xF, 0x81)])) (fun t => t.reg 0xF == 2)) = true := by
  decide
/-- A-44. -/
theorem test_rnd : nextSat (exec (.rnd 3 0x0F) { start with rand := 0xA5 }) (fun t => t.reg 3 == 5) = true := by decide

/-! ## Index register and memory -/

/-- M-1. -/
theorem test_ldI : nextSat (exec (.ldI 0x123) start) (fun t => t.i == 0x123) = true := by decide
/-- M-3, M-4. -/
theorem test_addIVx : (nextSat (exec (.addIVx 0) (({ start with i := 0xFFF } : State).setReg 0 1))
      (fun t => t.i == 0x1000 && t.reg 0xF == 0) &&
    nextSat (exec (.addIVx 0) (({ start with i := 0xFFFF } : State).setReg 0 1)) (fun t => t.i == 0)) = true := by decide
/-- M-7: the whole byte, not its low nibble. -/
theorem test_ldFVx : nextSat (exec (.ldFVx 3) (start.setReg 3 0xFF)) (fun t => t.i == 0x4FB) = true := by decide
/-- S10. -/
theorem test_ldBVx : nextSat (exec (.ldBVx 0) (({ start with i := 0x300 } : State).setReg 0 0xEA))
    (fun t => t.byteAt 0x300 == 2 && t.byteAt 0x301 == 3 && t.byteAt 0x302 == 4 && t.i == 0x300) = true := by decide
/-- M-12. -/
theorem test_ldBVx_end : faultIs (exec (.ldBVx 0) { start with i := 0xFFE }) (.addressOutOfRange 4096 4096) = true := by
  decide
/-- M-13. -/
theorem test_ldMemVx : nextSat (exec (.ldMemVx 1) (withRegs { start with i := 0x300 } [(0, 1), (1, 2), (2, 3)]))
    (fun t => t.byteAt 0x300 == 1 && t.byteAt 0x301 == 2 && t.byteAt 0x302 == 0 && t.i == 0x300) = true := by decide
/-- S11, M-15. -/
theorem test_ldMemVx_faults : (faultIs (exec (.ldMemVx 0xF) { start with i := 4090 }) (.addressOutOfRange 4096 4096) &&
    faultIs (exec (.ldMemVx 0) { start with i := 0xFFFF }) (.addressOutOfRange 0xFFFF 4096)) = true := by decide
/-- M-18. -/
theorem test_ldVxMem : nextSat (exec (.ldVxMem 2) (withBytes { start with i := 0x300 } 0x300 [2, 3, 4, 5]))
    (fun t => t.reg 0 == 2 && t.reg 1 == 3 && t.reg 2 == 4 && t.reg 3 == 0 && t.i == 0x300) = true := by decide
/-- M-17. -/
theorem test_ldVxMem_end : faultIs (exec (.ldVxMem 0xF) { start with i := 0xFF1 }) (.addressOutOfRange 4096 4096) = true := by
  decide
/-- Writing what an unlisted address reads as removes the cell (the canonical form). -/
theorem test_memory_canonical : Memory.write cfg10 [(0x300, 5)] 0x300 0 = [] ∧
    Memory.write cfg10 [] 0 0xF0 = [] := by decide

/-! ## Display -/

/-- D-11. -/
theorem test_cls : nextSat (exec .cls { start with fb := start.fb.put 3 4 true })
    (fun t => lit t == []) = true := by decide
/-- D-2: columns wrap. -/
theorem test_drw_wraps : nextSat (exec (.drw 0 1 1) (withBytes (withRegs { start with i := 0x300 } [(0, 62)]) 0x300 [0xFF]))
    (fun t => lit t == [(0, 0), (1, 0), (2, 0), (3, 0), (4, 0), (5, 0), (62, 0), (63, 0)] && t.reg 0xF == 0) = true := by
  decide
/-- D-9: the origin is the old VF. -/
theorem test_drw_origin_vf : nextSat (exec (.drw 0xF 1 1) (withBytes (withRegs { start with i := 0x300 } [(0xF, 5)]) 0x300 [0x80]))
    (fun t => lit t == [(5, 0)] && t.reg 0xF == 0) = true := by decide

/-! ## Keys and timers -/

/-- K-1, K-2. -/
theorem test_skp : (nextSat (exec (.skp 5) (({ start with key := start.key.set 7 true } : State).setReg 5 7))
      (fun t => t.pc == 0x204) && nextSat (exec (.skp 5) (start.setReg 5 7)) (fun t => t.pc == 0x202)) = true := by decide
/-- K-3. -/
theorem test_sknp : nextSat (exec (.sknp 5) (start.setReg 5 7)) (fun t => t.pc == 0x204) = true := by decide
/-- K-4. -/
theorem test_key_code : (faultIs (exec (.skp 5) (start.setReg 5 0x10)) (.invalidKeyCode 0x10) &&
    faultIs (exec (.sknp 5) (start.setReg 5 0x10)) (.invalidKeyCode 0x10)) = true := by decide
/-- K-9. -/
theorem test_ldVxDt : nextSat (exec (.ldVxDt 1) { start with dt := 0x3C }) (fun t => t.reg 1 == 0x3C) = true := by decide
/-- K-10. -/
theorem test_ldDtVx : nextSat (exec (.ldDtVx 0) (({ start with accDT := 9 } : State).setReg 0 5))
    (fun t => t.dt == 5 && t.accDT == 9) = true := by decide
/-- K-11. -/
theorem test_ldStVx : nextSat (exec (.ldStVx 0) (start.setReg 0 2)) (fun t => t.st == 2 && !t.beep) = true := by decide
/-- K-5: a key-down of the same tick does not end the wait. -/
theorem test_ldVxK : nextSat (step (ready [0xF3, 0x0A] { idle with downs := [7] }))
    (fun t => t.run == .awaitingKey 3 && t.pc == 0x202 && t.reg 3 == 0) = true := by decide

/-! ## Timers -/

/-- S9, T-4: five periods at once, and an accumulator that drains at zero. -/
theorem test_timer_delay : (advanceTimer 10 50 0 5).1 = 0 ∧ (advanceTimer 10 50 0 5).2.1 = 0 ∧
    (advanceTimer 10 30 0 0).1 = 0 ∧ (advanceTimer 10 30 0 0).2.1 = 0 := by decide
/-- T-3: one unit short of a period, then the unit. -/
theorem test_timer_boundary : advanceTimer 10 9 0 5 = (5, 9, false) ∧ (advanceTimer 10 1 9 5).1 = 4 := by decide
/-- T-6, T-8, T-9: the beep is the step from 1 to 0. -/
theorem test_timer_beep : (advanceTimer 10 10 0 1).2.2 = true ∧ (advanceTimer 10 50 0 2).2.2 = true ∧
    (advanceTimer 10 10 0 0).2.2 = false ∧ (advanceTimer 10 20 0 3).2.2 = false := by decide

/-! ## Steps -/

/-- X-4: the instruction completes, then the quit check halts. -/
theorem test_step_quit : nextSat (step (ready [0x60, 0x01] { idle with quit := true }))
    (fun t => t.reg 0 == 1 && t.run == .halted && t.quit) = true := by decide
/-- X-5: the timers still advance in the tick that halts. -/
theorem test_step_halt : nextSat (step { ready [0, 0] { idle with elapsed := 10 } with dt := 3 })
    (fun t => t.run == .halted && t.dt == 2 && t.pc == 0x202) = true := by decide
/-- T-6, T-10 in whole ticks, and K-6: the timers advance and beep in a Running tick, on the timer the
instruction set, and in a waiting one. -/
theorem test_step_timers : (nextSat (step { ready [0xF0, 0x15] { idle with elapsed := 1 } with
        v := start.v.set 0 3, st := 1, accDT := 9, accST := 9 })
      (fun t => t.dt == 2 && t.accDT == 0 && t.st == 0 && t.accST == 0 && t.beep && t.run == .running) &&
    nextSat (step { ready [] { idle with elapsed := 11 } with run := .awaitingKey 3, dt := 5, st := 2 })
      (fun t => t.dt == 4 && t.accDT == 1 && t.st == 1 && t.accST == 1 && !t.beep && t.run == .awaitingKey 3)) = true := by
  decide
/-- X-7: a fault comes before the quit check. -/
theorem test_step_unknown : faultIs (step (ready [0x50, 0x01] { idle with quit := true })) (.unknownOpcode 0x5001) = true := by
  decide
/-- K-7: the wake-up and the next instruction are in one tick. -/
theorem test_step_wake : nextSat (step { ready [0x60, 0x01] { idle with downs := [0xC, 0x2] } with run := .awaitingKey 3 })
    (fun t => t.run == .running && t.reg 3 == 0xC && t.reg 0 == 1 && t.pc == 0x202) = true := by decide
/-- K-8: a quit ends a key wait, the register unchanged. -/
theorem test_step_quit_waiting : nextSat (step { ready [0x60, 0x01] { idle with quit := true } with run := .awaitingKey 3 })
    (fun t => t.run == .halted && t.reg 3 == 0 && t.reg 0 == 0) = true := by decide
/-- Cxkk sees the tick's rand byte (R243), and the framebuffer goes out (R247). -/
theorem test_step_rand : nextSat (step { ready [0xC3, 0x0F] { idle with rand := 0xA5 } with fb := start.fb.put 1 2 true })
    (fun t => t.reg 3 == 5 && t.fbOut.get 1 2) = true := by decide
/-- X-1, X-9 and the longest ROM's bound. -/
theorem test_boot : (match boot cfg10 [0x60, 0x05] with
      | .ok s => s.byteAt 0x200 == 0x60 && s.byteAt 0x201 == 0x05 && s.byteAt 0x202 == 0 && s.byteAt 0x00 == 0xF0 &&
          s.byteAt 0x4F == 0x80 && s.pc == 0x200
      | .error _ => false) = true := by decide
theorem test_boot_refuses : boot cfg10 [] = .error .emptyRom ∧
    boot cfg10 (List.replicate 3585 0) = .error (.romTooLarge 3585) := by
  refine ⟨by rfl, ?_⟩
  unfold boot
  rw [List.length_replicate]; rfl
/-- The word of every row runs as the first instruction after reset; 00EE alone faults, on the empty
stack (R102). -/
theorem test_first_instruction : opcodeMap.all (fun r =>
    nextSat (step (State.reset.withFetchWord 16 r.fixed.toNat)) (fun t => t.tick == 1) ||
      (r.mnemonic == "RET" && faultIs (step (State.reset.withFetchWord 16 r.fixed.toNat)) .stackUnderflow)) = true := by
  decide

/-! ## Witnesses: the hypotheses of each obligation are met together

A theorem `witness_<Name>` is about `Obligations.<Name>`. -/

theorem witness_DecodeAfterEncode : (Instr.drw 1 2 15).wellFormed = true ∧ (Instr.ldVxMem 0xF).wellFormed = true := by
  decide

theorem witness_EncodeAfterDecode : decode 0xD12F = .ok (.drw 1 2 15) ∧ decode 0x00EE = .ok .ret := ⟨rfl, rfl⟩

theorem witness_DecodeSelectsTheMatchingRow : decode 0x812E = .ok (.shl 1 2) ∧
    (∃ r ∈ opcodeMap, (0x812E : Word) &&& r.mask = r.fixed) ∧
    (∀ r ∈ opcodeMap, (0x5001 : Word) &&& r.mask ≠ r.fixed) := ⟨rfl, by decide, by decide⟩

theorem witness_BootBuildsTheResetState : ([] : List Byte).length = 0 ∧ 3584 < (List.replicate 3585 (0 : Byte)).length ∧
    0 < ([0x60] : List Byte).length ∧ (List.replicate 3584 (0 : Byte)).length ≤ 3584 := by
  simp only [List.length_replicate]; decide

/-- A running core with an instruction at the last place a fetch can read, and a wake-up from a key
wait that goes on to fetch. -/
theorem witness_StepRunsTheDecodedInstruction :
    (∃ s p : State, CanTick s ∧ p = poll s.nextInput s ∧ p.run = .running ∧ p.pc.toNat + 1 = 4095 ∧
      (0x6005 : Word).toNat = (p.byteAt p.pc.toNat).toNat * 256 + (p.byteAt (p.pc.toNat + 1)).toNat ∧
      decode 0x6005 = .ok (.ldImm 0 5)) ∧
    (∃ s p : State, CanTick s ∧ s.run = .awaitingKey 3 ∧ p = poll s.nextInput s ∧ p.run = .running ∧
      p.pc.toNat + 1 < 4096 ∧
      (0x6005 : Word).toNat = (p.byteAt p.pc.toNat).toNat * 256 + (p.byteAt (p.pc.toNat + 1)).toNat) :=
  ⟨⟨withBytes { ready [] idle with pc := 0xFFE } 0xFFE [0x60, 0x05], _, Or.inl rfl, rfl, rfl, rfl, by decide, rfl⟩,
   ⟨{ ready [0x60, 0x05] { idle with downs := [7] } with run := .awaitingKey 3 }, _, Or.inr ⟨3, rfl⟩, rfl, rfl, rfl,
     by decide, by decide⟩⟩

theorem witness_FetchFaultsOutsideMemory :
    (∃ s p : State, CanTick s ∧ p = poll s.nextInput s ∧ p.run = .running ∧ p.pc.toNat = 4095) ∧
    (∃ s p : State, CanTick s ∧ p = poll s.nextInput s ∧ p.run = .running ∧ p.pc.toNat = 4096) :=
  ⟨⟨{ ready [] idle with pc := 0xFFF }, _, Or.inl rfl, rfl, rfl, rfl⟩,
   ⟨{ ready [] idle with pc := 0x1000 }, _, Or.inl rfl, rfl, rfl, rfl⟩⟩

theorem witness_UnknownOpcodeFaults : ∃ s p : State, CanTick s ∧ p = poll s.nextInput s ∧ p.run = .running ∧
    p.pc.toNat + 1 < 4096 ∧
    (0x5001 : Word).toNat = (p.byteAt p.pc.toNat).toNat * 256 + (p.byteAt (p.pc.toNat + 1)).toNat ∧
    ∀ r ∈ opcodeMap, (0x5001 : Word) &&& r.mask ≠ r.fixed :=
  ⟨ready [0x50, 0x01] idle, _, Or.inl rfl, rfl, rfl, by decide, by decide, by decide⟩

theorem witness_PollReplacesKeysAndEndsTheWait :
    (∃ (inp : TickInput) (s : State), s.run = .awaitingKey 3 ∧ inp.downs = [0xF, 2] ∧ (1 : Nibble) ≠ 3) ∧
    (∃ s : State, ∀ x, s.run ≠ .awaitingKey x) ∧
    (∃ (inp : TickInput) (s : State), s.run = .awaitingKey 3 ∧ inp.downs = []) :=
  ⟨⟨{ idle with downs := [0xF, 2] }, { start with run := .awaitingKey 3 }, rfl, rfl, by decide⟩,
   ⟨start, fun _ h => by cases h⟩, ⟨idle, { start with run := .awaitingKey 3 }, rfl, rfl⟩⟩

theorem witness_WaitingTickRunsNoInstruction : ∃ s : State, s.run = .awaitingKey 3 ∧ s.nextInput.downs = [] ∧
    s.quit = false ∧ s.nextInput.quit = false ∧ s.cfg.wf :=
  ⟨{ ready [] idle with run := .awaitingKey 3 }, rfl, rfl, rfl, rfl, by decide⟩

/-- A step that runs an instruction, with its execute phase's own next state. -/
theorem witness_EveryTickOutputsTheFramebuffer : ∃ s t u : State, step s = .next t ∧
    executePhase (poll s.nextInput s) = .next u := ⟨ready [0x60, 0x05] idle, _, _, rfl, rfl⟩

theorem witness_StepKeepsTheConfiguration : ∃ s t : State, step s = .next t :=
  ⟨{ ready [] idle with run := .awaitingKey 3 }, _, rfl⟩

theorem witness_TimerLoopPass : 0 < 10 ∧ 0 + 9 < 10 ∧ 10 ≤ 0 + 10 ∧ (0 : Byte).toNat = 0 ∧ 0 < (1 : Byte).toNat := by
  decide

theorem witness_TimerPhaseClosedForm : start.cfg.wf := by decide

/-- A tick that runs an instruction, with a quit signal and without one, and a waiting tick. -/
theorem witness_QuitCheckEndsTheTick : (∃ s t : State, step s = .next t ∧ t.quit = true) ∧
    (∃ s t : State, s.run = .running ∧ step s = .next t ∧ t.quit = false) ∧
    ∃ s t : State, s.run = .awaitingKey 3 ∧ step s = .next t ∧ t.quit = false :=
  ⟨⟨ready [0x60, 0x05] { idle with quit := true }, _, rfl, rfl⟩, ⟨ready [0x60, 0x05] idle, _, rfl, rfl, rfl⟩,
   ⟨{ ready [] idle with run := .awaitingKey 3 }, _, rfl, rfl, rfl⟩⟩

theorem witness_TicksOnlyFromRunningAndWaiting : (∃ s, ¬ CanTick s) ∧ (∃ s, CanTick s ∧ s.run = .running) ∧
    ∃ s, CanTick s ∧ s.run = .awaitingKey 0xF := by
  refine ⟨⟨{ start with run := .halted }, ?_⟩, ⟨start, Or.inl rfl, rfl⟩,
    ⟨{ start with run := .awaitingKey 0xF }, Or.inr ⟨_, rfl⟩, rfl⟩⟩
  rintro (h | ⟨x, h⟩) <;> cases h

theorem witness_FaultEndsTheTick : ∃ (s : State) (f : Fault), CanTick s ∧
    executePhase (poll s.nextInput s) = .fault f := ⟨ready [0x00, 0xEE] idle, _, Or.inl rfl, rfl⟩

theorem witness_StepKeepsTheInvariant : ∃ s t : State, Inv s ∧ step s = .next t :=
  ⟨ready [0x60, 0x05] idle, _, ⟨by decide, by decide, by decide, rfl⟩, rfl⟩

theorem witness_StepKeepsThePcBound : ∃ s t : State, PcBound s ∧ step s = .next t :=
  ⟨ready [0x60, 0x05] idle, _, ⟨by decide, by decide⟩, rfl⟩

theorem witness_BootMeetsTheInvariants : ∃ s, cfg10.wf ∧ boot cfg10 [0x60, 0x05] = .ok s := ⟨_, by decide, rfl⟩

theorem witness_CanonicalMemoriesAreEqual : Memory.wf cfg10 [(0x300, 5)] = true ∧
    ∀ a, a < 4096 → Memory.read cfg10 [(0x300, 5)] a = Memory.read cfg10 [(0x300, 5)] a :=
  ⟨by decide, fun _ _ => rfl⟩

theorem witness_ReturnPopsTheStack : (∃ s : State, s.sp.val = 0) ∧ (∃ s : State, s.sp.val = 1) ∧
    ∃ s : State, s.sp.val = 16 := ⟨⟨start, rfl⟩, ⟨{ start with sp := 1 }, rfl⟩, ⟨{ start with sp := 16 }, rfl⟩⟩

theorem witness_CallPushesAndJumps : (∃ s : State, s.sp.val = 16) ∧ (∃ s : State, s.sp.val = 15) ∧
    ∃ s : State, s.sp.val = 0 := ⟨⟨{ start with sp := 16 }, rfl⟩, ⟨{ start with sp := 15 }, rfl⟩, ⟨start, rfl⟩⟩

theorem witness_ReturnUndoesCall : ∃ s t : State, s.sp.val = 15 ∧ exec (.call 0x300) s = .next t :=
  ⟨{ start with sp := 15 }, _, rfl, rfl⟩

/-- VF as destination, as source and as both. -/
theorem witness_AddSetsCarryThenSum : [((0xF : Nibble), (2 : Nibble)), (1, 0xF), (0xF, 0xF), (1, 2)].all (fun p =>
    nextSat (exec (.addReg p.1 p.2) (withRegs start [(1, 0xFF), (2, 1), (0xF, 0x80)])) (fun _ => true)) = true := by decide

/-- `c`, `vx` and `vy` are given by their equations, for either order and with VF as an operand. -/
theorem witness_SubtractSetsNoBorrowThenDifference : ∃ c vx vy : Nat,
    c = (if (start.reg 0xF).toNat > (start.reg 2).toNat then 1 else 0) ∧
    vx = (if (0xF : Nibble) = 0xF then c else (start.reg 0xF).toNat) ∧
    vy = (if (2 : Nibble) = 0xF then c else (start.reg 2).toNat) := ⟨_, _, _, rfl, rfl, rfl⟩

theorem witness_ShiftsSetTheBitOutThenTheResult :
    (∃ (src : Nibble) (c v : Nat), src = (if start.cfg.shiftSource = .vy then 2 else 0xF) ∧ src = 2 ∧
      c = (start.reg src).toNat % 2 ∧ v = (if src = 0xF then c else (start.reg src).toNat)) ∧
    (∃ (s : State) (src : Nibble) (c v : Nat), src = (if s.cfg.shiftSource = .vy then 2 else 0xF) ∧ src = 0xF ∧
      c = (s.reg src).toNat / 128 ∧ v = (if src = 0xF then c else (s.reg src).toNat)) :=
  ⟨⟨2, _, _, rfl, rfl, rfl, rfl⟩, ⟨{ start with cfg := cfgVx }, 0xF, _, _, rfl, rfl, rfl, rfl⟩⟩

theorem witness_BcdStoresThreeDigits : (∃ s : State, s.i.toNat = 4093 ∧ Memory.wf s.cfg s.mem = true) ∧
    ∃ s : State, s.i.toNat = 4094 := ⟨⟨{ start with i := 4093 }, rfl, rfl⟩, ⟨{ start with i := 4094 }, rfl⟩⟩

theorem witness_StoresTheRegisters :
    (∃ s : State, dataAddress s (0xF : Nibble).toNat = 4095 ∧ Memory.wf s.cfg s.mem = true) ∧
    (∃ s : State, dataAddress s (0xF : Nibble).toNat = 4096) ∧ ∃ s : State, dataAddress s (0 : Nibble).toNat = 0xFFFF :=
  ⟨⟨{ start with i := 4080 }, rfl, rfl⟩, ⟨{ start with i := 4081 }, rfl⟩, ⟨{ start with i := 0xFFFF }, rfl⟩⟩

theorem witness_LoadsTheRegisters : (∃ s : State, dataAddress s (0xF : Nibble).toNat = 4095) ∧
    ∃ s : State, dataAddress s (0xF : Nibble).toNat = 4096 :=
  ⟨⟨{ start with i := 4080 }, rfl⟩, ⟨{ start with i := 4081 }, rfl⟩⟩

theorem witness_StoreThenLoadRestores : ∃ s t : State, Memory.wf s.cfg s.mem = true ∧
    exec (.ldMemVx 3) s = .next t := ⟨{ start with i := 0x300 }, _, rfl, rfl⟩

/-- X-10: Fx55 at 0x200 writes the two bytes the next fetch reads. -/
theorem witness_StoredBytesAreFetched : ∃ s t : State, Memory.wf s.cfg s.mem = true ∧ exec (.ldMemVx 1) s = .next t ∧
    (1 : Nibble).toNat = (0 : Nibble).toNat + 1 ∧ (1 : Nibble).toNat ≤ (1 : Nibble).toNat ∧
    t.pc.toNat = dataAddress s (0 : Nibble).toNat := ⟨{ start with i := 0x202 }, _, rfl, rfl, rfl, le_refl _, rfl⟩

/-- A sprite that ends at the last byte, and one of no rows with I outside memory. -/
theorem witness_DrawFlipsTheSprite : ∃ (bit : State → Nat → Nat → Bool) (column : State → Nat → Fin 64)
    (line : State → Nat → Fin 32), 15 < 16 ∧ dataAddress { start with i := 4081 } 15 ≤ 4096 ∧
    4096 < dataAddress { start with i := 0xFFFF } 0 ∧
    ∀ s, (∀ row col, bit s row col = (s.byteAt (dataAddress s row)).toNat.testBit (7 - col)) ∧
      (∀ col, (column s col).val = ((s.reg 1).toNat + col) % 64) ∧
      (∀ row, (line s row).val = ((s.reg 2).toNat + row) % 32) :=
  ⟨fun s row col => (s.byteAt (dataAddress s row)).toNat.testBit (7 - col), fun s => spriteColumn (s.reg 1),
   fun s => spriteRow (s.reg 2), by decide, by decide, by decide, fun _ => ⟨fun _ _ => rfl, fun _ => rfl, fun _ => rfl⟩⟩

theorem witness_DrawFaultsOutsideMemory : 0 < 15 ∧ 15 < 16 ∧ 4096 < dataAddress { start with i := 4082 } 15 ∧
    4096 < dataAddress { start with i := 4096 } 1 := by decide

/-- D-1: the second draw collides where the first one set a clear pixel. Log entry 21: where it
cleared a set pixel, the second draw does not collide, and the framebuffer is restored too. -/
theorem witness_DrawTwiceRestores :
    nextSat (andThen (exec (.drw 0 1 1) (withBytes { start with i := 0x300 } 0x300 [0x80])) (exec (.drw 0 1 1)))
      (fun t => lit t == [] && t.reg 0xF == 1) = true ∧
    nextSat (andThen (exec (.drw 0 1 1) (withBytes { start with i := 0x300, fb := start.fb.put 0 0 true } 0x300 [0x80]))
        (exec (.drw 0 1 1)))
      (fun t => lit t == [(0, 0)] && t.reg 0xF == 0) = true := by decide

theorem witness_DrawAfterClearDoesNotCollide : nextSat (andThen (exec .cls { start with fb := start.fb.put 0 0 true })
    (exec (.drw 0 1 5))) (fun t => t.reg 0xF == 0) = true := by decide

theorem witness_SkipsOnAKey : (∃ s : State, (s.reg 5).toNat = 15) ∧ ∃ s : State, (s.reg 5).toNat = 16 :=
  ⟨⟨start.setReg 5 15, rfl⟩, ⟨start.setReg 5 16, rfl⟩⟩

theorem witness_StackChangesOnlyByPushAndPop : (∃ s : State, s.sp.val = 16) ∧ (∃ s : State, s.sp.val = 15) ∧
    (∃ s : State, s.sp.val = 0) ∧ ∃ s t : State, exec (.jp 0x300) s = .next t ∧ usesStack (.jp 0x300) = false :=
  ⟨⟨{ start with sp := 16 }, rfl⟩, ⟨{ start with sp := 15 }, rfl⟩, ⟨start, rfl⟩, ⟨start, _, rfl, rfl⟩⟩

/-- 6xkk writes none of I, memory, PC, framebuffer and run state; 8xy4 writes VF but not V3; Fx65
with x = 1 does not write V2. -/
theorem witness_InstructionsWriteOnlyTheirState : (∃ s t : State, exec (.ldImm 0 1) s = .next t) ∧
    writesI (.ldImm 0 1) = false ∧ writesMem (.ldImm 0 1) = false ∧ writesPc (.ldImm 0 1) = false ∧
    writesFb (.ldImm 0 1) = false ∧ writesRun (.ldImm 0 1) = false ∧
    writesReg (.addReg 1 2) 3 = false ∧ (3 : Nibble) ≠ 0xF ∧ writesReg (.ldVxMem 1) 2 = false ∧
    writesReg (.ldImm 0 1) 0xF = false ∧ writesFlag (.ldImm 0 1) = false :=
  ⟨⟨start, _, rfl⟩, rfl, rfl, rfl, rfl, rfl, by decide, by decide, by decide, by decide, rfl⟩

theorem witness_TimersAreSetByTheirInstructionsAlone : ∃ s t : State, exec (.ldVxDt 1) s = .next t ∧
    (∀ x, Instr.ldVxDt 1 ≠ .ldDtVx x) ∧ ∀ x, Instr.ldVxDt 1 ≠ .ldStVx x :=
  ⟨start, _, rfl, by simp, by simp⟩

/-- Another value in the entry at SP, where a call goes on and a return faults. -/
theorem witness_StaleStackEntriesAreUnobservable : ∃ (s t : State) (w : Vector Word 16), w ≠ s.stack ∧
    (∀ j : Fin 16, j.val < s.sp.val → w[j] = s.stack[j]) ∧ exec (.call 0x300) s = .next t ∧
    exec .ret s = .fault .stackUnderflow := by
  refine ⟨start, _, start.stack.set 0 0x45A, by decide, fun j h => absurd h (Nat.not_lt_zero _), rfl, rfl⟩

end Sys2Proof.Tests
end

section
/-! PROOFS. The call stack (spec/10_state.md R30): what Push and Pop do, what each instruction that can
fault writes when it goes on, and that only 2nnn and 00EE reach SP and the stack entries. -/

namespace Sys2Proof.Machine

/-! ## Push and Pop -/

/-- Push below the top of the stack writes the entry at SP and raises SP (R30). -/
theorem push_ok {s : State} (w : Word) (h : s.sp.val < 16) :
    ∃ t, s.push w = .ok t ∧ t.sp.val = s.sp.val + 1 ∧ t.stack[s.sp.val] = w ∧
      (∀ j : Fin 16, j.val ≠ s.sp.val → t.stack[j] = s.stack[j]) ∧
      t = { s with stack := t.stack, sp := t.sp } :=
  ⟨_, push_of_lt w h, rfl, Vector.getElem_set_self h,
    fun j hj => Vector.getElem_set_ne h j.isLt hj.symm, rfl⟩

/-- Pop above the bottom of the stack lowers SP and gives the entry SP then names (R30). -/
theorem pop_ok {s : State} (h : 0 < s.sp.val) :
    ∃ t, s.pop = .ok (s.stack[s.sp.val - 1], t) ∧ t.sp.val = s.sp.val - 1 ∧ t = { s with sp := t.sp } :=
  ⟨_, pop_of_pos h, rfl, rfl⟩

/-! ## What an instruction that can fault writes when it goes on -/

section
variable {s t : State} {x : Nibble}

theorem exec_skp_frame (h : exec (.skp x) s = .next t) : t = { s with pc := t.pc } := by
  rcases Nat.lt_or_ge (s.reg x).toNat 16 with hk | hk
  · rw [exec_skp_of_lt hk] at h; cases h; rfl
  · rw [exec_skp_of_ge hk] at h; cases h

theorem exec_sknp_frame (h : exec (.sknp x) s = .next t) : t = { s with pc := t.pc } := by
  rcases Nat.lt_or_ge (s.reg x).toNat 16 with hk | hk
  · rw [exec_sknp_of_lt hk] at h; cases h; rfl
  · rw [exec_sknp_of_ge hk] at h; cases h

theorem exec_ldBVx_frame (h : exec (.ldBVx x) s = .next t) : t = { s with mem := t.mem } := by
  rcases Nat.lt_or_ge s.i.toNat 4094 with hi | hi
  · rw [exec_ldBVx_of_lt hi] at h; cases h; rfl
  · rw [exec_ldBVx_of_ge hi] at h; cases h

theorem exec_ldMemVx_frame (h : exec (.ldMemVx x) s = .next t) : t = { s with mem := t.mem } := by
  rcases Nat.lt_or_ge (s.i.toNat + x.toNat) 4096 with hi | hi
  · obtain ⟨u, hu, hframe, -⟩ := exec_ldMemVx_ok hi
    rw [hu] at h; cases h; exact hframe
  · rw [exec_ldMemVx_fault hi] at h; cases h

theorem exec_ldVxMem_frame (h : exec (.ldVxMem x) s = .next t) : t = { s with v := t.v } := by
  rcases Nat.lt_or_ge (s.i.toNat + x.toNat) 4096 with hi | hi
  · obtain ⟨u, hu, hframe, -⟩ := exec_ldVxMem_ok hi
    rw [hu] at h; cases h; exact hframe
  · rw [exec_ldVxMem_fault hi] at h; cases h

end

/-! ## The frame of the stack -/

/-- An instruction other than 2nnn and 00EE that goes on leaves the stack entries and SP as they were. -/
theorem exec_keeps_stack {i : Instr} {s t : State} (h : exec i s = .next t) (hu : usesStack i = false) :
    t.stack = s.stack ∧ t.sp = s.sp := by
  cases i with
  | ret => cases hu
  | call nnn => cases hu
  | skp x => rw [exec_skp_frame h]; exact ⟨rfl, rfl⟩
  | sknp x => rw [exec_sknp_frame h]; exact ⟨rfl, rfl⟩
  | drw x y n => rw [(exec_drw_frame h).1]; exact ⟨rfl, rfl⟩
  | ldBVx x => rw [exec_ldBVx_frame h]; exact ⟨rfl, rfl⟩
  | ldMemVx x => rw [exec_ldMemVx_frame h]; exact ⟨rfl, rfl⟩
  | ldVxMem x => rw [exec_ldVxMem_frame h]; exact ⟨rfl, rfl⟩
  | _ => -- always goes on, to an update of other fields (`Laws/Exec.lean`)
    cases h; exact ⟨rfl, rfl⟩

/-- Settles O57: the two rules of the stack operations at an empty, a full and any other stack, and the
stack's frame over all other instructions. -/
theorem stackChangesOnlyByPushAndPop : Obligations.StackChangesOnlyByPushAndPop := by
  unfold Obligations.StackChangesOnlyByPushAndPop
  exact ⟨fun _ w => ⟨push_of_full w, push_ok w, pop_of_zero, pop_ok⟩, fun _ _ _ => exec_keeps_stack⟩

end Sys2Proof.Machine
end

section
/-! PROOFS. The fields of a word (spec/30_encoding.md R81, R83), the decoder against the rows of the
opcode map (R84, R85, R87), and the step on a word outside the map. -/

namespace Sys2Proof

/-! ## The fields overlap (R83) -/

theorem fieldKk_toNat_eq (op : Word) :
    (fieldKk op).toNat = (fieldY op).toNat * 2 ^ 4 + (fieldN op).toNat := by
  rw [fieldKk_toNat, fieldY_toNat, fieldN_toNat]; omega

theorem fieldNnn_toNat_eq (op : Word) :
    (fieldNnn op).toNat = (fieldX op).toNat * 2 ^ 8 + (fieldKk op).toNat := by
  rw [fieldNnn_toNat, fieldX_toNat, fieldKk_toNat]; omega

theorem word_toNat_eq (op : Word) : op.toNat = (fieldO op).toNat * 2 ^ 12 + (fieldNnn op).toNat := by
  rw [fieldO_toNat, fieldNnn_toNat]; omega

/-- Settles O3: `kk`, `nnn` and the word are each made of the fields they overlap, shifted and added. -/
theorem fieldsRebuildTheWord : Obligations.FieldsRebuildTheWord := by
  unfold Obligations.FieldsRebuildTheWord
  intro op
  have hop := word_toNat_eq op
  have hnnn := fieldNnn_toNat_eq op
  have hkk := fieldKk_toNat_eq op
  refine ⟨hop, ?_, hnnn, hkk⟩
  rw [hop, hnnn, hkk, ← Nat.add_assoc, ← Nat.add_assoc]

theorem fieldKk_eq_iff (a b : Word) : fieldKk a = fieldKk b ↔ fieldY a = fieldY b ∧ fieldN a = fieldN b := by
  simp only [← BitVec.toNat_inj, fieldKk_toNat, fieldY_toNat, fieldN_toNat]; omega

theorem fieldNnn_eq_iff (a b : Word) :
    fieldNnn a = fieldNnn b ↔ fieldX a = fieldX b ∧ fieldY a = fieldY b ∧ fieldN a = fieldN b := by
  simp only [← BitVec.toNat_inj, fieldNnn_toNat, fieldX_toNat, fieldY_toNat, fieldN_toNat]; omega

/-! ## What the four masks of the map compare (R87) -/

section
variable (op f : Word)

/-- `BitVec.and_allOnes` where the ones are a literal. -/
theorem nibble_and_0xF (a : Nibble) : a &&& 0xF#4 = a := BitVec.and_allOnes

/-- A mask of four nibbles, with the fixed word taken apart by its fields. -/
theorem and_wordXyn_eq_iff (o x y n : Nibble) : op &&& wordXyn o x y n = f ↔
    fieldO op &&& o = fieldO f ∧ fieldX op &&& x = fieldX f ∧ fieldY op &&& y = fieldY f ∧
      fieldN op &&& n = fieldN f := by
  rw [← and_eq_iff, wordXyn_fields]

/-- The mask of a row that fixes `o`. -/
theorem and_F000_eq_iff :
    op &&& 0xF000 = f ↔ fieldO op = fieldO f ∧ 0 = fieldX f ∧ 0 = fieldY f ∧ 0 = fieldN f :=
  (and_wordXyn_eq_iff op f 0xF 0 0 0).trans (by simp [nibble_and_0xF])

/-- The mask of a row that fixes `o` and `n`. -/
theorem and_F00F_eq_iff :
    op &&& 0xF00F = f ↔ fieldO op = fieldO f ∧ 0 = fieldX f ∧ 0 = fieldY f ∧ fieldN op = fieldN f :=
  (and_wordXyn_eq_iff op f 0xF 0 0 0xF).trans (by simp [nibble_and_0xF])

/-- The mask of a row that fixes `o` and `kk`. -/
theorem and_F0FF_eq_iff :
    op &&& 0xF0FF = f ↔ fieldO op = fieldO f ∧ 0 = fieldX f ∧ fieldKk op = fieldKk f :=
  (and_wordXyn_eq_iff op f 0xF 0 0xF 0xF).trans (by simp [nibble_and_0xF, fieldKk_eq_iff])

/-- The mask of a row that fixes the whole word. -/
theorem and_FFFF_eq_iff : op &&& 0xFFFF = f ↔ fieldO op = fieldO f ∧ fieldNnn op = fieldNnn f :=
  (and_wordXyn_eq_iff op f 0xF 0xF 0xF 0xF).trans (by simp [nibble_and_0xF, fieldNnn_eq_iff])

end

/-! ## The decoder against the map -/

/-- A result of decoding `op` that the map allows (R85, R87): an instruction of a row that `op`
matches, or `op` as an unknown opcode. -/
def AllowedByMap (op : Word) : Except DecodeError Instr → Prop
  | .ok i => (opcodeRow i).Matches op
  | .error e => e = .unknownOpcode op

section
variable {op : Word}

theorem decodeGroup0_allowed (ho : fieldO op = 0x0) : AllowedByMap op (decodeGroup0 op) := by
  unfold decodeGroup0
  split_ifs <;> simp only [AllowedByMap, opcodeRow, OpcodeRow.Matches, and_FFFF_eq_iff]
  all_goals exact ⟨ho, ‹_›⟩

theorem decodeGroup8_allowed (ho : fieldO op = 0x8) : AllowedByMap op (decodeGroup8 op) := by
  unfold decodeGroup8
  split <;> simp only [AllowedByMap, opcodeRow, OpcodeRow.Matches, and_F00F_eq_iff]
  all_goals exact ⟨ho, rfl, rfl, BitVec.eq_of_toNat_eq ‹_›⟩

theorem decodeGroupE_allowed (ho : fieldO op = 0xE) : AllowedByMap op (decodeGroupE op) := by
  unfold decodeGroupE
  split_ifs <;> simp only [AllowedByMap, opcodeRow, OpcodeRow.Matches, and_F0FF_eq_iff]
  all_goals exact ⟨ho, rfl, ‹_›⟩

theorem decodeGroupF_allowed (ho : fieldO op = 0xF) : AllowedByMap op (decodeGroupF op) := by
  unfold decodeGroupF
  split_ifs <;> simp only [AllowedByMap, opcodeRow, OpcodeRow.Matches, and_F0FF_eq_iff]
  all_goals exact ⟨ho, rfl, ‹_›⟩

theorem decodeIfN0_allowed {i : Instr} (h : fieldN op = 0 → (opcodeRow i).Matches op) :
    AllowedByMap op (decodeIfN0 op i) := by
  unfold decodeIfN0
  split_ifs with hn
  · exact h hn
  · rfl

end

/-- The decoder never leaves the map: dispatch nibble by dispatch nibble (R84). -/
theorem decode_allowed (op : Word) : AllowedByMap op (decode op) := by
  unfold decode
  split <;> rename_i ho
  case h_1 => exact decodeGroup0_allowed (BitVec.eq_of_toNat_eq ho)
  case h_9 => exact decodeGroup8_allowed (BitVec.eq_of_toNat_eq ho)
  case h_15 => exact decodeGroupE_allowed (BitVec.eq_of_toNat_eq ho)
  case h_16 => exact decodeGroupF_allowed (BitVec.eq_of_toNat_eq ho)
  case h_6 | h_10 =>
    refine decodeIfN0_allowed fun hn => ?_
    simp only [opcodeRow, OpcodeRow.Matches, and_F00F_eq_iff]
    exact ⟨BitVec.eq_of_toNat_eq ho, rfl, rfl, hn⟩
  case h_17 => rfl
  all_goals
    simp only [AllowedByMap, opcodeRow, OpcodeRow.Matches, and_F000_eq_iff]
    exact ⟨BitVec.eq_of_toNat_eq ho, rfl, rfl, rfl⟩

/-- A word with the fixed bits of an instruction's row decodes to an instruction of that row: the mask
fixes just the fields the decoder's group looks at. -/
theorem decode_of_matches {op : Word} (j : Instr) (h : (opcodeRow j).Matches op) :
    ∃ i, decode op = .ok i ∧ opcodeRow i = opcodeRow j := by
  unfold decode
  cases j with
  | halt | cls | ret =>
    simp only [opcodeRow, OpcodeRow.Matches, and_FFFF_eq_iff] at h
    obtain ⟨ho, hnnn⟩ := h
    unfold decodeGroup0; rw [ho, hnnn]
    refine ⟨_, rfl, ?_⟩; rfl
  | jp | call | seImm | sneImm | ldImm | addImm | ldI | jpV0 | rnd | drw =>
    simp only [opcodeRow, OpcodeRow.Matches, and_F000_eq_iff] at h
    obtain ⟨ho, -⟩ := h
    rw [ho]
    refine ⟨_, rfl, ?_⟩; rfl
  | seReg | sneReg =>
    simp only [opcodeRow, OpcodeRow.Matches, and_F00F_eq_iff] at h
    obtain ⟨ho, -, -, hn⟩ := h
    unfold decodeIfN0; rw [ho, hn]
    refine ⟨_, rfl, ?_⟩; rfl
  | ldReg | orReg | andReg | xorReg | addReg | subReg | shr | subn | shl =>
    simp only [opcodeRow, OpcodeRow.Matches, and_F00F_eq_iff] at h
    obtain ⟨ho, -, -, hn⟩ := h
    unfold decodeGroup8; rw [ho, hn]
    refine ⟨_, rfl, ?_⟩; rfl
  | skp | sknp =>
    simp only [opcodeRow, OpcodeRow.Matches, and_F0FF_eq_iff] at h
    obtain ⟨ho, -, hk⟩ := h
    unfold decodeGroupE; rw [ho, hk]
    refine ⟨_, rfl, ?_⟩; rfl
  | ldVxDt | ldVxK | ldDtVx | ldStVx | addIVx | ldFVx | ldBVx | ldMemVx | ldVxMem =>
    simp only [opcodeRow, OpcodeRow.Matches, and_F0FF_eq_iff] at h
    obtain ⟨ho, -, hk⟩ := h
    unfold decodeGroupF; rw [ho, hk]
    refine ⟨_, rfl, ?_⟩; rfl

/-- Every instruction's row is in the map. -/
theorem opcodeRow_mem (i : Instr) : opcodeRow i ∈ opcodeMap := by
  cases i <;> simp only [opcodeRow] <;> decide

/-! ## Selection -/

section
variable {op : Word}

theorem opcodeRow_matches_of_decode {i : Instr} (h : decode op = .ok i) : (opcodeRow i).Matches op := by
  have hallowed := decode_allowed op
  rwa [h] at hallowed

/-- A word that matches a row of the map decodes to an instruction of that row. -/
theorem decode_of_mem_matches {r : OpcodeRow} (hr : r ∈ opcodeMap) (h : r.Matches op) :
    ∃ i, decode op = .ok i ∧ opcodeRow i = r := by
  obtain ⟨j, -, rfl⟩ := List.mem_map.1 hr
  exact decode_of_matches j h

/-- The row a word decodes to is the only one the word matches. -/
theorem matches_unique {i : Instr} (h : decode op = .ok i) {r : OpcodeRow} (hr : r ∈ opcodeMap)
    (hm : r.Matches op) : r = opcodeRow i := by
  obtain ⟨i', hi', rfl⟩ := decode_of_mem_matches hr hm
  rw [h] at hi'
  rw [Except.ok.inj hi']

/-- A word outside the map is an unknown opcode (R85). -/
theorem decode_of_no_row (h : ∀ r ∈ opcodeMap, ¬ r.Matches op) : decode op = .error (.unknownOpcode op) := by
  cases hd : decode op with
  | ok i => exact absurd (opcodeRow_matches_of_decode hd) (h _ (opcodeRow_mem i))
  | error e =>
    have hallowed := decode_allowed op
    rw [hd] at hallowed
    exact congrArg Except.error hallowed

end

/-- Settles O4: decoding answers only with a row the word matches, and a matching row fixes the answer's
row, so it is the only one. -/
theorem decodeSelectsTheMatchingRow : Obligations.DecodeSelectsTheMatchingRow := by
  unfold Obligations.DecodeSelectsTheMatchingRow
  refine ⟨rfl, fun op => ⟨fun i h => ?_, ?_, decode_of_no_row⟩⟩
  · exact ⟨opcodeRow_mem i, opcodeRow_matches_of_decode h, fun r => matches_unique h⟩
  · rintro ⟨r, hr, hm⟩
    obtain ⟨i, hi, -⟩ := decode_of_mem_matches hr hm
    exact ⟨i, hi⟩

end Sys2Proof

namespace Sys2Proof.Machine

/-! ## The step on a word outside the map (R85) -/

theorem executeOne_error {p : State} {op : Word} {e : DecodeError} (hf : fetch p = .ok op)
    (hd : decode op = .error e) : executeOne p = .fault (.unknownOpcode op) := by
  simp [executeOne, hf, hd]

theorem fetch_of_toNat {p : State} {op : Word} (hpc : p.pc.toNat + 1 < 4096)
    (hop : op.toNat = (p.byteAt p.pc.toNat).toNat * 256 + (p.byteAt (p.pc.toNat + 1)).toNat) :
    fetch p = .ok op := by
  rw [fetch_ok hpc, BitVec.eq_of_toNat_eq (hop.trans (joinBytes_toNat _ _).symm)]

/-- Settles O11: the fetch gives the word, its decode fails, and the fault ends the tick. -/
theorem unknownOpcodeFaults : Obligations.UnknownOpcodeFaults := by
  unfold Obligations.UnknownOpcodeFaults
  rintro s p op hs rfl hrun hpc hop hno
  have hexec := executeOne_error (fetch_of_toNat hpc hop) (decode_of_no_row hno)
  rw [step_of_canTick hs, tickWith, executePhase_running hrun, hexec, afterNext_fault]

end Sys2Proof.Machine
end

section
/-! PROOFS. Halt, jump, call, return and the register skips (spec/40_control_flow.md): where each one
goes on, with its frame, and the faults of the two that use the call stack. -/

namespace Sys2Proof.Machine

/-! ## Halt and jump -/

/-- Settles O26: `run` is the one field HALT sets. -/
theorem haltStopsTheRun : Obligations.HaltStopsTheRun := by
  unfold Obligations.HaltStopsTheRun
  exact fun s => ⟨s.setRun .halted, exec_halt s, setRun_run s _, rfl, setRun_byteAt s _⟩

/-- Extending an address to a word keeps its value (R82). -/
@[simp] theorem addressOf_toNat (nnn : Address) : (addressOf nnn).toNat = nnn.toNat :=
  BitVec.toNat_setWidth_of_le (by decide)

/-- Settles O28: PC is the one field JP sets, to the extended address. -/
theorem jumpGoesToTheAddress : Obligations.JumpGoesToTheAddress := by
  unfold Obligations.JumpGoesToTheAddress
  exact fun nnn s => ⟨s.setPc (addressOf nnn), exec_jp s nnn, addressOf_toNat nnn, rfl, setPc_byteAt s _⟩

/-! ## Return and call -/

/-- Settles O27: RET is a Pop into PC, at an empty and at any other stack. -/
theorem returnPopsTheStack : Obligations.ReturnPopsTheStack := by
  unfold Obligations.ReturnPopsTheStack
  refine fun s => ⟨exec_ret_of_zero, fun hpos => ?_⟩
  exact ⟨_, exec_ret_of_pos hpos, rfl, rfl, rfl, fun _ => rfl⟩

/-- Settles O29: CALL is a Push of PC and a jump, at a full and at any other stack; the Push writes the
entry at SP and no other. -/
theorem callPushesAndJumps : Obligations.CallPushesAndJumps := by
  unfold Obligations.CallPushesAndJumps
  refine fun nnn s => ⟨exec_call_of_full nnn, fun hroom => ?_⟩
  exact ⟨_, exec_call_of_lt nnn hroom, rfl, Vector.getElem_set_self hroom,
    fun j hj => Vector.getElem_set_ne hroom j.isLt hj.symm, addressOf_toNat nnn, rfl, fun _ => rfl⟩

/-! ## Skips -/

/-- `Skip()` moves PC two on, mod 2^16 (R28, R100). -/
theorem skipIf_pc_toNat (c : Bool) (s : State) :
    (skipIf c s).pc.toNat = if c then (s.pc.toNat + 2) % 65536 else s.pc.toNat := by
  cases c
  · rfl
  · exact BitVec.toNat_add s.pc 2

/-- What every skip does once its test `c` is read as a condition `p`: PC, and PC alone. -/
theorem next_skipIf (s : State) {c : Bool} {p : Prop} [Decidable p] (hcp : c = true ↔ p) :
    ∃ t, (.next (skipIf c s) : Host.Outcome State Fault Refusal) = .next t ∧
      t.pc.toNat = (if p then (s.pc.toNat + 2) % 65536 else s.pc.toNat) ∧
      t = { s with pc := t.pc } ∧ ∀ a, t.byteAt a = s.byteAt a := by
  refine ⟨_, rfl, ?_, skipIf_eq c s, fun _ => rfl⟩
  rw [skipIf_pc_toNat]
  exact if_congr hcp rfl rfl

/-- Settles O30: the tests are equality and inequality with the immediate. -/
theorem skipsOnAnImmediate : Obligations.SkipsOnAnImmediate := by
  unfold Obligations.SkipsOnAnImmediate
  intro x kk s
  rw [exec_seImm, exec_sneImm]
  exact ⟨next_skipIf s beq_iff_eq, next_skipIf s bne_iff_ne⟩

/-- Settles O31: the tests are equality and inequality of the two registers. -/
theorem skipsOnTwoRegisters : Obligations.SkipsOnTwoRegisters := by
  unfold Obligations.SkipsOnTwoRegisters
  intro x y s
  rw [exec_seReg, exec_sneReg]
  exact ⟨next_skipIf s beq_iff_eq, next_skipIf s bne_iff_ne⟩

end Sys2Proof.Machine
end

section
/-! PROOFS. Loads, the immediate add and the bitwise operations (spec/41_arithmetic.md): each writes one
register, and VF only where it is that register. -/

namespace Sys2Proof.Machine

/-- A write of Vx leaves every other register, all other state and every byte of memory as they were. -/
theorem setReg_frame (s : State) (x : Nibble) (b : Byte) :
    (∀ z, z ≠ x → (s.setReg x b).reg z = s.reg z) ∧ s.setReg x b = { s with v := (s.setReg x b).v } ∧
      ∀ a, (s.setReg x b).byteAt a = s.byteAt a :=
  ⟨fun _ hz => reg_setReg_of_ne s b hz, setReg_eq s x b, setReg_byteAt s x b⟩

/-! ## Loads and the immediate add -/

/-- Settles O34: both loads are one write of Vx, of the immediate and of Vy's old value. -/
theorem loadsImmediatesAndRegisters : Obligations.LoadsImmediatesAndRegisters := by
  unfold Obligations.LoadsImmediatesAndRegisters
  refine fun x y kk s => ⟨?ldImm, ?ldReg⟩
  case ldImm => exact ⟨_, exec_ldImm s x kk, reg_setReg_self s x _, setReg_frame s x _⟩
  case ldReg => exact ⟨_, exec_ldReg s x y, reg_setReg_self s x _, setReg_frame s x _⟩

/-- Settles O35: the sum of two bytes is a byte, so it wraps, and Vx is the one register written. -/
theorem addImmediateWraps : Obligations.AddImmediateWraps := by
  unfold Obligations.AddImmediateWraps
  refine fun x kk s => ⟨_, exec_addImm s x kk, ?_, setReg_frame s x _⟩
  rw [reg_setReg_self]
  exact BitVec.toNat_add (s.reg x) kk

/-! ## Bitwise operations -/

/-- Settles O36: each operation is one write of Vx, of a byte whose bits are computed one by one. -/
theorem logicWorksBitByBit : Obligations.LogicWorksBitByBit := by
  unfold Obligations.LogicWorksBitByBit
  refine fun x y s => ⟨⟨_, exec_orReg s x y, fun b => ?or, setReg_frame s x _⟩,
    ⟨_, exec_andReg s x y, fun b => ?and, setReg_frame s x _⟩,
    ⟨_, exec_xorReg s x y, fun b => ?xor, setReg_frame s x _⟩⟩
  case or => rw [reg_setReg_self, BitVec.getLsbD_or]
  case and => rw [reg_setReg_self, BitVec.getLsbD_and]
  case xor => rw [reg_setReg_self, BitVec.getLsbD_xor]

end Sys2Proof.Machine
end

section
/-! PROOFS. Loading the index register (spec/42_index_memory.md). -/

namespace Sys2Proof.Machine

/-- Settles O41: I is the one field LD I writes, with the extended address. -/
theorem loadsTheIndex : Obligations.LoadsTheIndex := by
  unfold Obligations.LoadsTheIndex
  exact fun nnn s => ⟨s.setI (addressOf nnn), exec_ldI s nnn, addressOf_toNat nnn, rfl, setI_byteAt s _⟩

end Sys2Proof.Machine
end

section
/-! PROOFS. Clearing the framebuffer (spec/43_display.md). -/

namespace Sys2Proof.Machine

/-- Settles O48: the framebuffer is the one field CLS writes, and the blank one has no pixel set. -/
theorem clearBlanksTheFramebuffer : Obligations.ClearBlanksTheFramebuffer := by
  unfold Obligations.ClearBlanksTheFramebuffer
  exact fun s => ⟨s.clearFb, exec_cls s, clearFb_pixel s, rfl, clearFb_byteAt s⟩

end Sys2Proof.Machine
end

section
/-! PROOFS. Key skips and reading the delay timer (spec/44_input_timers.md). -/

namespace Sys2Proof.Machine

/-! ## Key skips -/

/-- A key code below 16 names a key, and SKP skips where that key is down (R190). -/
theorem exec_skp_ok {s : State} {x : Nibble} (hk : (s.reg x).toNat < 16) :
    ∃ t, exec (.skp x) s = .next t ∧
      t.pc.toNat = (if s.key[(s.reg x).toNat] = true then (s.pc.toNat + 2) % 65536 else s.pc.toNat) ∧
      t = { s with pc := t.pc } ∧ ∀ a, t.byteAt a = s.byteAt a := by
  rw [exec_skp_of_lt hk]
  exact next_skipIf s Iff.rfl

/-- A key code below 16 names a key, and SKNP skips where that key is not down (R191). -/
theorem exec_sknp_ok {s : State} {x : Nibble} (hk : (s.reg x).toNat < 16) :
    ∃ t, exec (.sknp x) s = .next t ∧
      t.pc.toNat = (if s.key[(s.reg x).toNat] = true then s.pc.toNat else (s.pc.toNat + 2) % 65536) ∧
      t = { s with pc := t.pc } ∧ ∀ a, t.byteAt a = s.byteAt a := by
  rw [exec_sknp_of_lt hk]
  have hskip := next_skipIf s (Bool.not_iff_not (b := s.key[(s.reg x).toNat]))
  simpa only [ite_not] using hskip

/-- Settles O53: a code below 16 is a skip on one key, and any other code faults before the skip. -/
theorem skipsOnAKey : Obligations.SkipsOnAKey := by
  unfold Obligations.SkipsOnAKey
  exact fun x s => ⟨fun hk => ⟨exec_skp_ok hk, exec_sknp_ok hk⟩, fun hk => ⟨exec_skp_of_ge hk, exec_sknp_of_ge hk⟩⟩

/-! ## Reading the delay timer -/

/-- Settles O55: the read is one write of Vx, of the delay timer's value. -/
theorem readsTheDelayTimer : Obligations.ReadsTheDelayTimer := by
  unfold Obligations.ReadsTheDelayTimer
  exact fun x s => ⟨_, exec_ldVxDt s x, reg_setReg_self s x _, setReg_frame s x _⟩

end Sys2Proof.Machine
end

section
/-! PROOFS. The phases after the execute phase (spec/60_exceptions.md): the timer loop pass by pass
(R232) and the output of the framebuffer (R247). -/

namespace Sys2Proof.Machine

/-! ## The timer loop, pass by pass (R232) -/

/-- Below one period the loop ends where it is. -/
theorem drainTimer_of_lt {period acc : Nat} (fuel : Nat) (t : Byte) (hit : Bool) (h : acc < period) :
    drainTimer period fuel acc t hit = (t, acc, hit) := by
  cases fuel with
  | zero => rfl
  | succ fuel => exact if_neg (Nat.not_le_of_gt h)

/-- With enough fuel the loop is the timer phase of a fresh accumulator: the fuel makes no difference,
and an earlier note only joins the loop's own. -/
theorem drainTimer_eq_advanceTimer {period fuel acc : Nat} (hp : 0 < period) (t : Byte) (hit : Bool)
    (hf : acc / period ≤ fuel) : drainTimer period fuel acc t hit =
      ((advanceTimer period acc 0 t).1, (advanceTimer period acc 0 t).2.1,
        hit || (advanceTimer period acc 0 t).2.2) := by
  simp only [advanceTimer, Nat.zero_add]
  obtain ⟨ht, hacc, hhit⟩ := drainTimer_spec hp fuel acc t hit hf
  obtain ⟨ht', hacc', hhit'⟩ := drainTimer_spec hp acc acc t false (drainFuel_enough period acc)
  refine Prod.ext (BitVec.eq_of_toNat_eq (ht.trans ht'.symm)) (Prod.ext (hacc.trans hacc'.symm) ?_)
  rw [Bool.eq_iff_iff, Bool.or_eq_true, hhit, hhit']
  simp only [Bool.false_eq_true, false_or]

section
variable {period elapsed acc : Nat} {t : Byte}

theorem advanceTimer_of_lt (h : acc + elapsed < period) :
    advanceTimer period elapsed acc t = (t, acc + elapsed, false) :=
  drainTimer_of_lt _ t false h

/-- One pass of the loop at or above one period, and the fuel left after it is enough to go on. -/
theorem advanceTimer_of_ge (hp : 0 < period) (h : period ≤ acc + elapsed) :
    ∃ fuel, (acc + elapsed - period) / period ≤ fuel ∧ advanceTimer period elapsed acc t =
      if 0 < t.toNat then drainTimer period fuel (acc + elapsed - period) (t - 1) (t == 1)
      else drainTimer period fuel (acc + elapsed - period) t false := by
  obtain ⟨fuel, hfuel⟩ := Nat.exists_eq_add_one.2 (hp.trans_le h)
  refine ⟨fuel, (Nat.div_le_self _ _).trans (by omega), ?_⟩
  unfold advanceTimer
  rw [hfuel] at h ⊢
  exact if_pos h

/-- A pass on a timer at 0 only takes one period off the accumulator. -/
theorem advanceTimer_of_ge_zero (hp : 0 < period) (h : period ≤ acc + elapsed) (ht : t.toNat = 0) :
    advanceTimer period elapsed acc t = advanceTimer period (acc + elapsed - period) 0 t := by
  obtain ⟨fuel, hfuel, hpass⟩ := advanceTimer_of_ge (t := t) hp h
  rw [hpass, if_neg (by omega), drainTimer_eq_advanceTimer hp t false hfuel, Bool.false_or]

/-- A pass on a running timer steps it down and notes the step from 1 to 0. -/
theorem advanceTimer_of_ge_pos (hp : 0 < period) (h : period ≤ acc + elapsed) (ht : 0 < t.toNat) :
    advanceTimer period elapsed acc t =
      ((advanceTimer period (acc + elapsed - period) 0 (t - 1)).1,
        (advanceTimer period (acc + elapsed - period) 0 (t - 1)).2.1,
        decide (t.toNat = 1) || (advanceTimer period (acc + elapsed - period) 0 (t - 1)).2.2) := by
  obtain ⟨fuel, hfuel, hpass⟩ := advanceTimer_of_ge (t := t) hp h
  have hone : (t == 1) = decide (t.toNat = 1) := decide_eq_decide.2 BitVec.toNat_inj.symm
  rw [hpass, if_pos ht, drainTimer_eq_advanceTimer hp (t - 1) (t == 1) hfuel, hone]

end

/-- Settles O15: the loop's three cases, each one pass and then the loop with the fuel left, which is as
good as fresh fuel. -/
theorem timerLoopPass : Obligations.TimerLoopPass := by
  unfold Obligations.TimerLoopPass
  refine ⟨fun _ _ => rfl, fun period elapsed acc t hp =>
    ⟨advanceTimer_of_lt, advanceTimer_of_ge_zero hp, fun hge ht => ?_⟩⟩
  rw [advanceTimer_of_ge_pos hp hge ht]
  exact ⟨rfl, rfl, rfl⟩

/-! ## The output of the framebuffer (R247) -/

/-- A tick that answers a next state is its execute phase's next state, taken through the tick's end. -/
theorem step_next_endTick {s t : State} (h : step s = .next t) :
    ∃ u, executePhase (poll s.nextInput s) = .next u ∧ t = endTick s.nextInput u := by
  have hcan : CanTick s := (step_next_cases h).1
  rw [step_of_canTick hcan, tickWith] at h
  exact afterNext_eq_next.1 h

/-- Settles O14: the tick's end outputs the framebuffer of the execute phase's state and keeps it. -/
theorem everyTickOutputsTheFramebuffer : Obligations.EveryTickOutputsTheFramebuffer := by
  unfold Obligations.EveryTickOutputsTheFramebuffer
  intro s t h
  obtain ⟨u, hu, rfl⟩ := step_next_endTick h
  have hout : ∀ c r, (endTick s.nextInput u).fbOut.get c r = u.pixel c r := fun c r => by
    rw [endTick_fbOut, State.pixel]
  refine ⟨hout, fun u' hu' => ?_⟩
  obtain rfl : u = u' := Host.Outcome.next.inj (hu.symm.trans hu')
  exact hout

end Sys2Proof.Machine
end

section
/-! PROOFS. The decoder and the encoder are inverse to each other (spec/30_encoding.md R83, R87), and
the words that are no instruction (R85, R88). -/

namespace Sys2Proof

/-! ## Decoding an encoded instruction -/

/-- The round trip through the word, row by row of the opcode map (`Laws/PerInstr.lean`). -/
theorem decode_encode (i : Instr) (h : i.wellFormed = true) : decode (encode i) = .ok i := by
  cases i with
  | halt => exact Laws.EncodeDecode.halt h
  | cls => exact Laws.EncodeDecode.cls h
  | ret => exact Laws.EncodeDecode.ret h
  | jp nnn => exact Laws.EncodeDecode.jp nnn h
  | call nnn => exact Laws.EncodeDecode.call nnn h
  | seImm x kk => exact Laws.EncodeDecode.seImm x kk h
  | sneImm x kk => exact Laws.EncodeDecode.sneImm x kk h
  | seReg x y => exact Laws.EncodeDecode.seReg x y h
  | ldImm x kk => exact Laws.EncodeDecode.ldImm x kk h
  | addImm x kk => exact Laws.EncodeDecode.addImm x kk h
  | ldReg x y => exact Laws.EncodeDecode.ldReg x y h
  | orReg x y => exact Laws.EncodeDecode.orReg x y h
  | andReg x y => exact Laws.EncodeDecode.andReg x y h
  | xorReg x y => exact Laws.EncodeDecode.xorReg x y h
  | addReg x y => exact Laws.EncodeDecode.addReg x y h
  | subReg x y => exact Laws.EncodeDecode.subReg x y h
  | shr x y => exact Laws.EncodeDecode.shr x y h
  | subn x y => exact Laws.EncodeDecode.subn x y h
  | shl x y => exact Laws.EncodeDecode.shl x y h
  | sneReg x y => exact Laws.EncodeDecode.sneReg x y h
  | ldI nnn => exact Laws.EncodeDecode.ldI nnn h
  | jpV0 nnn => exact Laws.EncodeDecode.jpV0 nnn h
  | rnd x kk => exact Laws.EncodeDecode.rnd x kk h
  | drw x y n => exact Laws.EncodeDecode.drw x y n h
  | skp x => exact Laws.EncodeDecode.skp x h
  | sknp x => exact Laws.EncodeDecode.sknp x h
  | ldVxDt x => exact Laws.EncodeDecode.ldVxDt x h
  | ldVxK x => exact Laws.EncodeDecode.ldVxK x h
  | ldDtVx x => exact Laws.EncodeDecode.ldDtVx x h
  | ldStVx x => exact Laws.EncodeDecode.ldStVx x h
  | addIVx x => exact Laws.EncodeDecode.addIVx x h
  | ldFVx x => exact Laws.EncodeDecode.ldFVx x h
  | ldBVx x => exact Laws.EncodeDecode.ldBVx x h
  | ldMemVx x => exact Laws.EncodeDecode.ldMemVx x h
  | ldVxMem x => exact Laws.EncodeDecode.ldVxMem x h

/-- Two bytes that join to an instruction's word are that instruction, whatever follows (R64, R80). -/
theorem decodeBytes_of_ok {hi lo : Byte} {i : Instr} (rest : List Byte) (h : decode (joinBytes hi lo) = .ok i) :
    decodeBytes (hi :: lo :: rest) = .ok (i, rest) := by
  simp only [decodeBytes, h]

/-- Settles O1: the round trip through the word, and the word's two bytes join to it again. -/
theorem decodeAfterEncode : Obligations.DecodeAfterEncode := by
  unfold Obligations.DecodeAfterEncode
  intro i hi
  have hword := decode_encode i hi
  refine ⟨hword, fun rest => decodeBytes_of_ok rest ?_⟩
  rwa [joinBytes_high_low]

/-! ## Encoding a decoded word -/

section
variable {op : Word} {o n : Nibble} {kk : Byte}

theorem wordNnn_of_field (ho : fieldO op = o) : wordNnn o (fieldNnn op) = op := by
  rw [← ho, wordNnn_fields]

theorem wordXkk_of_fields (ho : fieldO op = o) (hk : fieldKk op = kk) : wordXkk o (fieldX op) kk = op := by
  rw [← ho, ← hk, wordXkk_fields]

theorem wordXyn_of_fields (ho : fieldO op = o) (hn : fieldN op = n) :
    wordXyn o (fieldX op) (fieldY op) n = op := by
  rw [← ho, ← hn, wordXyn_fields]

/-- `o` and `nnn` fix the word. -/
theorem eq_of_fieldNnn {w : Word} (ho : fieldO op = fieldO w) (hnnn : fieldNnn op = fieldNnn w) : w = op := by
  rw [← wordNnn_fields w, ← ho, ← hnnn, wordNnn_fields]

end

/-- A result of decoding `op` from which `op` can be built again: a well-formed instruction whose word is
`op`, or an error. -/
def EncodesBack (op : Word) : Except DecodeError Instr → Prop
  | .ok i => encode i = op ∧ i.wellFormed = true
  | .error _ => True

section
variable {op : Word}

theorem decodeGroup0_encodesBack (ho : fieldO op = 0x0) : EncodesBack op (decodeGroup0 op) := by
  unfold decodeGroup0
  split_ifs with h0 hcls hret
  · exact ⟨eq_of_fieldNnn ho h0, rfl⟩
  · exact ⟨eq_of_fieldNnn ho hcls, rfl⟩
  · exact ⟨eq_of_fieldNnn ho hret, rfl⟩
  · trivial

theorem decodeIfN0_encodesBack {i : Instr} (h : fieldN op = 0 → encode i = op ∧ i.wellFormed = true) :
    EncodesBack op (decodeIfN0 op i) := by
  unfold decodeIfN0
  split_ifs with hn
  · exact h hn
  · trivial

theorem decodeGroup8_encodesBack (ho : fieldO op = 0x8) : EncodesBack op (decodeGroup8 op) := by
  unfold decodeGroup8
  split
  case h_10 => trivial
  all_goals exact ⟨wordXyn_of_fields ho (BitVec.eq_of_toNat_eq ‹_›), rfl⟩

theorem decodeGroupE_encodesBack (ho : fieldO op = 0xE) : EncodesBack op (decodeGroupE op) := by
  unfold decodeGroupE
  split_ifs with hskp hsknp
  · exact ⟨wordXkk_of_fields ho hskp, rfl⟩
  · exact ⟨wordXkk_of_fields ho hsknp, rfl⟩
  · trivial

theorem decodeGroupF_encodesBack (ho : fieldO op = 0xF) : EncodesBack op (decodeGroupF op) := by
  unfold decodeGroupF
  split_ifs
  case neg => trivial
  all_goals exact ⟨wordXkk_of_fields ho ‹_›, rfl⟩

end

/-- No bit of a decoded word is dropped: dispatch nibble by dispatch nibble (R84), the fields that an
instruction keeps and those its group fixes are the whole word. -/
theorem decode_encodesBack (op : Word) : EncodesBack op (decode op) := by
  unfold decode
  split <;> rename_i ho
  case h_1 => exact decodeGroup0_encodesBack (BitVec.eq_of_toNat_eq ho)
  case h_9 => exact decodeGroup8_encodesBack (BitVec.eq_of_toNat_eq ho)
  case h_15 => exact decodeGroupE_encodesBack (BitVec.eq_of_toNat_eq ho)
  case h_16 => exact decodeGroupF_encodesBack (BitVec.eq_of_toNat_eq ho)
  case h_6 | h_10 =>
    exact decodeIfN0_encodesBack fun hn => ⟨wordXyn_of_fields (BitVec.eq_of_toNat_eq ho) hn, rfl⟩
  case h_2 | h_3 | h_11 | h_12 => exact ⟨wordNnn_of_field (BitVec.eq_of_toNat_eq ho), rfl⟩
  case h_4 | h_5 | h_7 | h_8 | h_13 => exact ⟨wordXkk_of_fields (BitVec.eq_of_toNat_eq ho) rfl, rfl⟩
  case h_14 =>
    refine ⟨?_, decide_eq_true (fieldN op).isLt⟩
    exact wordXyn_of_fields (BitVec.eq_of_toNat_eq ho) (by simp)
  case h_17 => trivial

/-- Settles O2: every result of the decoder encodes back. -/
theorem encodeAfterDecode : Obligations.EncodeAfterDecode := by
  unfold Obligations.EncodeAfterDecode
  intro op i h
  have hback := decode_encodesBack op
  rwa [h] at hback

/-! ## The words that are no instruction (R88) -/

section
variable (op : Word)

theorem decodeGroup0_error_iff : decodeGroup0 op = .error (.unknownOpcode op) ↔
    op.toNat % 4096 ≠ 0 ∧ op.toNat % 4096 ≠ 0x0E0 ∧ op.toNat % 4096 ≠ 0x0EE := by
  unfold decodeGroup0
  simp only [← BitVec.toNat_inj, fieldNnn_toNat, BitVec.reduceToNat]
  split_ifs <;> simp [*]

theorem decodeIfN0_error_iff (i : Instr) :
    decodeIfN0 op i = .error (.unknownOpcode op) ↔ op.toNat % 16 ≠ 0 := by
  unfold decodeIfN0
  simp only [← BitVec.toNat_inj, fieldN_toNat, BitVec.reduceToNat]
  split_ifs <;> simp [*]

theorem decodeGroup8_error_iff : decodeGroup8 op = .error (.unknownOpcode op) ↔
    8 ≤ op.toNat % 16 ∧ op.toNat % 16 ≠ 0xE := by
  unfold decodeGroup8
  simp only [fieldN_toNat]
  split <;> simp
  case h_10 => simp only [imp_false] at *; omega
  all_goals omega

theorem decodeGroupE_error_iff : decodeGroupE op = .error (.unknownOpcode op) ↔
    op.toNat % 256 ≠ 0x9E ∧ op.toNat % 256 ≠ 0xA1 := by
  unfold decodeGroupE
  simp only [← BitVec.toNat_inj, fieldKk_toNat, BitVec.reduceToNat]
  split_ifs <;> simp [*]

theorem decodeGroupF_error_iff : decodeGroupF op = .error (.unknownOpcode op) ↔
    op.toNat % 256 ∉ [0x07, 0x0A, 0x15, 0x18, 0x1E, 0x29, 0x33, 0x55, 0x65] := by
  unfold decodeGroupF
  simp only [← BitVec.toNat_inj, fieldKk_toNat, BitVec.reduceToNat]
  split_ifs <;> simp [*]

end

/-- Settles O5: the dispatch nibble picks the group, and each group says which of its words it rejects;
the groups without an own rule reject none. -/
theorem illegalWordsByGroup : Obligations.IllegalWordsByGroup := by
  unfold Obligations.IllegalWordsByGroup
  intro op
  unfold decode
  simp only [fieldO_toNat]
  split <;> rename_i ho
  case h_1 => simp only [decodeGroup0_error_iff, ho]; simp
  case h_6 | h_10 => simp only [decodeIfN0_error_iff, ho]; simp
  case h_9 => simp only [decodeGroup8_error_iff, ho]; simp
  case h_15 => simp only [decodeGroupE_error_iff, ho]; simp
  case h_16 => simp only [decodeGroupF_error_iff, ho]; simp
  case h_17 => have := op.isLt; simp only [imp_false] at *; omega
  all_goals simp [ho]

/-- Settles O6: each pair of bytes joins to one word, which the decoder reads by evaluation. -/
theorem writtenOutWordsDecode : Obligations.WrittenOutWordsDecode := by
  unfold Obligations.WrittenOutWordsDecode
  decide

end Sys2Proof
end

section
/-! PROOFS. What an instruction that goes on can write (spec/10_state.md), field by field: every fact about
what the instructions leave alone, and every invariant of a step, is derived from `exec_frame`. -/

namespace Sys2Proof.Machine

/-- What instruction `i` leaves as it was from `s` to `t`: each field it does not write, and always the
configuration, the accumulators, the key and quit flags, the output ports, the rand latch and the input
queue. The stack and the registers have their own frames, `exec_keeps_stack` and `exec_keeps_reg`. -/
structure ExecFrame (i : Instr) (s t : State) : Prop where
  idx : writesI i = false → t.i = s.i
  mem : writesMem i = false → t.mem = s.mem
  pc : writesPc i = false → t.pc = s.pc
  fb : writesFb i = false → t.fb = s.fb
  run : writesRun i = false → t.run = s.run
  dt : (∀ x, i ≠ .ldDtVx x) → t.dt = s.dt
  st : (∀ x, i ≠ .ldStVx x) → t.st = s.st
  rest : t = { s with v := t.v, i := t.i, mem := t.mem, pc := t.pc, stack := t.stack, sp := t.sp,
                      dt := t.dt, st := t.st, fb := t.fb, run := t.run }

section
variable {i : Instr} {s t : State}

theorem exec_ret_next (h : exec .ret s = .next t) :
    ∃ hpos : 0 < s.sp.val, t = { s with pc := s.stack[s.sp.val - 1], sp := ⟨s.sp.val - 1, by omega⟩ } := by
  rcases Nat.eq_zero_or_pos s.sp.val with hzero | hpos
  · rw [exec_ret_of_zero hzero] at h; cases h
  · rw [exec_ret_of_pos hpos] at h; cases h; exact ⟨hpos, rfl⟩

theorem exec_call_next {nnn : Address} (h : exec (.call nnn) s = .next t) :
    ∃ hroom : s.sp.val < 16, t = { s with stack := s.stack.set s.sp.val s.pc,
                                          sp := ⟨s.sp.val + 1, by omega⟩, pc := addressOf nnn } := by
  by_cases hroom : s.sp.val < 16
  · rw [exec_call_of_lt nnn hroom] at h; cases h; exact ⟨hroom, rfl⟩
  · rw [exec_call_of_full nnn (by omega)] at h; cases h

/-- What Fx65 loads where it goes on (R155). -/
theorem exec_ldVxMem_next {x : Nibble} (h : exec (.ldVxMem x) s = .next t) (z : Nibble) :
    t.reg z = if z.toNat ≤ x.toNat then s.byteAt (s.i.toNat + z.toNat) else s.reg z := by
  rcases Nat.lt_or_ge (s.i.toNat + x.toNat) 4096 with hi | hi
  · obtain ⟨u, hu, -, hreg⟩ := exec_ldVxMem_ok hi
    rw [hu] at h; cases h; exact hreg z
  · rw [exec_ldVxMem_fault hi] at h; cases h

/-- The frame of every instruction that goes on. -/
theorem exec_frame (h : exec i s = .next t) : ExecFrame i s t := by
  cases i with
  | ret =>
    obtain ⟨_, rfl⟩ := exec_ret_next h
    constructor <;> simp [writesPc]
  | call nnn =>
    obtain ⟨_, rfl⟩ := exec_call_next h
    constructor <;> simp [writesPc]
  | skp x => rw [exec_skp_frame h]; constructor <;> simp [writesPc]
  | sknp x => rw [exec_sknp_frame h]; constructor <;> simp [writesPc]
  | drw x y n => rw [(exec_drw_frame h).1]; constructor <;> simp [writesFb]
  | ldBVx x => rw [exec_ldBVx_frame h]; constructor <;> simp [writesMem]
  | ldMemVx x => rw [exec_ldMemVx_frame h]; constructor <;> simp [writesMem]
  | ldVxMem x => rw [exec_ldVxMem_frame h]; constructor <;> simp
  | _ => -- always goes on, to an update of named fields (`Laws/Exec.lean`)
    cases h
    constructor
    case rest => rfl
    all_goals simp [writesI, writesPc, writesFb, writesRun, skipIf]

end

/-! ## The frame of the registers (R21, R22, R23) -/

section
variable {s : State} {x z : Nibble}

theorem ne_of_namedDest {i : Instr} (hdest : namedDest i = some x) (hw : (namedDest i == some z) = false) :
    z ≠ x := by
  rintro rfl
  rw [hdest, beq_self_eq_true] at hw
  cases hw

/-- A flag and then a result: Vx and VF are all the registers written (R120). -/
theorem reg_flagThenResult_of_ne (flag result : State → Byte) (hx : z ≠ x) (hvf : z ≠ vf) :
    (flagThenResult x flag result s).reg z = s.reg z := by
  rw [flagThenResult_eq, reg_setReg_of_ne _ _ hx, reg_setReg_of_ne _ _ hvf]

end

/-- An instruction that goes on keeps every register it does not name as a destination, VF too unless it
writes VF as a flag. -/
theorem exec_keeps_reg {i : Instr} {s t : State} (h : exec i s = .next t) {z : Nibble}
    (hw : writesReg i z = false) (hvf : z ≠ 0xF ∨ writesFlag i = false) : t.reg z = s.reg z := by
  cases i with
  | ret => obtain ⟨_, rfl⟩ := exec_ret_next h; rfl
  | call nnn => obtain ⟨_, rfl⟩ := exec_call_next h; rfl
  | skp x => rw [exec_skp_frame h]; rfl
  | sknp x => rw [exec_sknp_frame h]; rfl
  | ldBVx x => rw [exec_ldBVx_frame h]; rfl
  | ldMemVx x => rw [exec_ldMemVx_frame h]; rfl
  | drw x y n => exact (exec_drw_frame h).2 z (hvf.resolve_right nofun)
  | ldVxMem x =>
    have hz : ¬ z.toNat ≤ x.toNat := of_decide_eq_false hw
    rw [exec_ldVxMem_next h, if_neg hz]
  | ldImm | addImm | ldReg | orReg | andReg | xorReg | rnd | ldVxDt =>
    cases h; exact reg_setReg_of_ne s _ (ne_of_namedDest rfl hw)
  | addReg | subReg | shr | subn | shl =>
    cases h; exact reg_flagThenResult_of_ne _ _ (ne_of_namedDest rfl hw) (hvf.resolve_right nofun)
  | _ => -- writes no register (`Laws/Exec.lean`)
    cases h; rfl

/-- Settles O58: the frames of the registers and of the other fields, read register by register, byte by
byte and pixel by pixel. -/
theorem instructionsWriteOnlyTheirState : Obligations.InstructionsWriteOnlyTheirState := by
  unfold Obligations.InstructionsWriteOnlyTheirState
  intro i s t h
  obtain ⟨hidx, hmem, hpc, hfb, hrun, -, -, hrest⟩ := exec_frame h
  refine ⟨fun z => exec_keeps_reg h, hidx, fun hw a => ?_, hpc, fun hw c r => ?_, hrun, ?_⟩
  · rw [State.byteAt, hmem hw, hrest]; rfl
  · rw [State.pixel, hfb hw]; rfl
  · rw [hrest]; exact ⟨rfl, rfl, rfl, rfl, rfl, rfl, rfl⟩

end Sys2Proof.Machine
end

section
/-! PROOFS. The phases of a tick (spec/60_exceptions.md R240): fetch and execute, the closed form of the
timers, the quit check, where a tick exists at all, and what every tick keeps. -/

namespace Sys2Proof.Machine

/-! ## Fetch and execute (R64, R243) -/

theorem tickWith_of_fault {inp : TickInput} {s : State} {f : Fault}
    (h : executePhase (poll inp s) = .fault f) : tickWith inp s = .fault f := by
  rw [tickWith, h, afterNext_fault]

theorem executeOne_of_fetch_error {p : State} {f : Fault} (h : fetch p = .error f) : executeOne p = .fault f := by
  simp only [executeOne, h]

/-- Settles O9: the two bytes are the fetched word, its instruction runs past it, and the rest of the tick
follows where it goes on. -/
theorem stepRunsTheDecodedInstruction : Obligations.StepRunsTheDecodedInstruction := by
  unfold Obligations.StepRunsTheDecodedInstruction
  rintro s p op i hs rfl hrun hpc hop hdec
  have hexec := executeOne_ok (fetch_of_toNat hpc hop) hdec
  rw [step_of_canTick hs, tickWith, executePhase_running hrun, hexec]
  rfl

/-- A fetch that fails is the outcome of the step. -/
theorem step_of_fetch_error {s : State} {f : Fault} (hs : CanTick s)
    (hrun : (poll s.nextInput s).run = .running) (hf : fetch (poll s.nextInput s) = .error f) :
    step s = .fault f := by
  rw [step_of_canTick hs, tickWith_of_fault]
  rw [executePhase_running hrun, executeOne_of_fetch_error hf]

/-- Settles O10: beyond memory the first byte of the fetch fails, at the last address the second. -/
theorem fetchFaultsOutsideMemory : Obligations.FetchFaultsOutsideMemory := by
  unfold Obligations.FetchFaultsOutsideMemory
  rintro s p hs rfl hrun
  exact ⟨fun hpc => step_of_fetch_error hs hrun (fetch_beyond hpc),
    fun hpc => step_of_fetch_error hs hrun (fetch_last hpc)⟩

/-- Settles O19: the execute phase's fault is the tick's, and the run port shows the tick's fault. -/
theorem faultEndsTheTick : Obligations.FaultEndsTheTick := by
  unfold Obligations.FaultEndsTheTick
  intro s f hs hf
  have hstep : step s = .fault f := by rw [step_of_canTick hs, tickWith_of_fault hf]
  refine ⟨hstep, ?_⟩
  unfold runOut
  rw [← step, hstep]

/-- The execute phase that goes on ran no instruction, or the one fetched (R244). -/
theorem executePhase_next_cases {p u : State} (h : executePhase p = .next u) :
    u = p ∨ ∃ op i, fetch p = .ok op ∧ decode op = .ok i ∧ exec i p.advancePc = .next u := by
  cases hrun : p.run with
  | running =>
    rw [executePhase_running hrun, executeOne] at h
    split at h
    case h_1 => cases h
    case h_2 op hop =>
      split at h
      case h_1 => cases h
      case h_2 i hi => exact Or.inr ⟨op, i, hop, hi, h⟩
  | awaitingKey | halted | faulted =>
    rw [executePhase, hrun] at h
    exact Or.inl (Host.Outcome.next.inj h).symm

/-- The execute phase writes what the instructions write, and nothing else. -/
theorem executePhase_frame {p u : State} (h : executePhase p = .next u) :
    u = { p with v := u.v, i := u.i, mem := u.mem, pc := u.pc, stack := u.stack, sp := u.sp,
                 dt := u.dt, st := u.st, fb := u.fb, run := u.run } := by
  obtain rfl | ⟨op, i, -, -, hexec⟩ := executePhase_next_cases h
  · rfl
  · exact (exec_frame hexec).rest

/-! ## Poll (R241, R242) -/

/-- Without a key wait or without a key-down, the poll leaves run state and registers. -/
theorem poll_of_no_wake {s : State} {inp : TickInput} (h : (∀ x, s.run ≠ .awaitingKey x) ∨ inp.downs = []) :
    poll inp s = (takeInput inp s).setKeys inp.keys := by
  rcases h with hrun | hdowns
  · exact keyWait_of_not_awaiting _ hrun
  · rw [poll, hdowns, keyWait_none]

/-- Settles O12: a wake-up writes one register and the run state, any other poll neither. -/
theorem pollReplacesKeysAndEndsTheWait : Obligations.PollReplacesKeysAndEndsTheWait := by
  unfold Obligations.PollReplacesKeysAndEndsTheWait
  refine fun inp s => ⟨by rw [poll_eq], by rw [poll_eq], fun x k ks hrun hdowns => ?_, fun h => ?_, poll_eq inp s⟩
  · have hwake : poll inp s = (((takeInput inp s).setKeys inp.keys).setReg x (k.setWidth 8)).setRun .running := by
      rw [poll, hdowns]; exact keyWait_wake k ks hrun
    rw [hwake]
    refine ⟨rfl, ?_, fun z hz => reg_setReg_of_ne _ _ hz⟩
    rw [setRun_reg, reg_setReg_self]
    exact BitVec.toNat_setWidth_of_le (by decide)
  · rw [poll_of_no_wake h]
    exact ⟨rfl, rfl⟩

/-! ## The timer phase in closed form (R234) -/

/-- One timer after its phase: lowered once a full period but not below 0, the accumulator's rest, and a
note where it went to 0. -/
theorem advanceTimer_closed {period : Nat} (hp : 0 < period) (elapsed acc : Nat) (t : Byte) :
    (advanceTimer period elapsed acc t).1.toNat = t.toNat - (acc + elapsed) / period ∧
    (advanceTimer period elapsed acc t).2.1 = (acc + elapsed) % period ∧
    ((advanceTimer period elapsed acc t).2.2 = true ↔ 1 ≤ t.toNat ∧ t.toNat ≤ (acc + elapsed) / period) := by
  obtain ⟨htimer, hacc, hhit⟩ := drainTimer_spec hp (acc + elapsed) (acc + elapsed) t false (drainFuel_enough _ _)
  simp only [Bool.false_eq_true, false_or] at hhit
  exact ⟨htimer, hacc, hhit⟩

/-- Settles O16: both timers by the closed form of one, the beep being the sound timer's note. -/
theorem timerPhaseClosedForm : Obligations.TimerPhaseClosedForm := by
  unfold Obligations.TimerPhaseClosedForm
  intro s elapsed hp
  obtain ⟨hdt, haccDT, -⟩ := advanceTimer_closed hp elapsed s.accDT s.dt
  obtain ⟨hst, haccST, hbeep⟩ := advanceTimer_closed hp elapsed s.accST s.st
  exact ⟨hdt, haccDT, hst, haccST, hbeep, rfl⟩

@[simp] theorem endTick_byteAt (inp : TickInput) (s : State) (a : Nat) :
    (endTick inp s).byteAt a = s.byteAt a := rfl

/-- Settles O13: the tick is the poll and the tick's end, whose timers are those of the timer phase on the
state before the tick. -/
theorem waitingTickRunsNoInstruction : Obligations.WaitingTickRunsNoInstruction := by
  unfold Obligations.WaitingTickRunsNoInstruction
  intro s x hrun hdowns
  refine ⟨_, step_waiting hrun hdowns, ?pc, ?v, ?i, ?stack, ?sp, ?fb, ?out, ?bytes, ?run, ?timers⟩
  case run => exact fun hq hin => by simp [hq, hin, hrun]
  case timers =>
    intro hp
    obtain ⟨hdt, haccDT, hst, haccST, hbeep, -⟩ :=
      timerPhaseClosedForm ((takeInput s.nextInput s).setKeys s.nextInput.keys) s.nextInput.elapsed hp
    exact ⟨hdt, haccDT, hst, haccST, hbeep⟩
  all_goals simp

/-! ## The end of a tick -/

/-- Settles O17: the tick's end on the execute phase's state, whose quit flag is still the old one. -/
theorem quitCheckEndsTheTick : Obligations.QuitCheckEndsTheTick := by
  unfold Obligations.QuitCheckEndsTheTick
  intro s t h
  obtain ⟨u, hu, rfl⟩ := step_next_endTick h
  have hquit : u.quit = s.quit := by rw [executePhase_frame hu, poll_eq]
  refine ⟨u, hu, rfl, rfl, rfl, rfl, rfl, ?_, fun hq => ?_, fun hq => ?_, rfl⟩
  · rw [endTick_quit, hquit]
  · rw [endTick_quit] at hq
    rw [endTick_run, if_pos hq]
  · rw [endTick_quit] at hq
    rw [endTick_run, hq, if_neg Bool.false_ne_true]

/-- Settles O24: no phase writes the configuration, and the poll alone the input queue, the tick count and
the key flags. -/
theorem stepKeepsTheConfiguration : Obligations.StepKeepsTheConfiguration := by
  unfold Obligations.StepKeepsTheConfiguration
  intro s t h
  obtain ⟨u, hu, rfl⟩ := step_next_endTick h
  rw [endTick_cfg, endTick_inputs, endTick_tick, endTick_key, executePhase_frame hu, poll_eq]
  exact ⟨rfl, rfl, rfl, rfl⟩

/-! ## Where a tick exists (R246) -/

/-- Every instruction has a meaning: it goes on or faults. -/
theorem exec_ne_refused (i : Instr) (s : State) (r : Refusal) : exec i s ≠ .refused r := by
  cases i with
  | ret | call | skp | sknp | ldBVx | ldMemVx | ldVxMem | drw => exact finish_ne_refused
  | _ => intro h; cases h

theorem executePhase_ne_refused (p : State) (r : Refusal) : executePhase p ≠ .refused r := by
  cases hrun : p.run with
  | running =>
    rw [executePhase_running hrun, executeOne]
    split
    · exact nofun
    · split
      · exact nofun
      · exact exec_ne_refused _ _ r
  | awaitingKey | halted | faulted =>
    rw [executePhase, hrun]
    exact nofun

/-- Settles O18: from any run state but two the refusal is the step's own; from those two it could only be
an instruction's, and there is none. -/
theorem ticksOnlyFromRunningAndWaiting : Obligations.TicksOnlyFromRunningAndWaiting := by
  unfold Obligations.TicksOnlyFromRunningAndWaiting
  refine fun s => ⟨step_of_not_canTick, fun hs r h => ?_⟩
  rw [step_of_canTick hs, tickWith] at h
  cases hex : executePhase (poll s.nextInput s) with
  | next u => rw [hex] at h; cases h
  | fault f => rw [hex] at h; cases h
  | refused r' => exact executePhase_ne_refused _ _ hex

end Sys2Proof.Machine
end

section
/-! PROOFS. The jump through V0 and the return from a call (spec/40_control_flow.md), the operations with a
flag and the random byte (spec/41_arithmetic.md), the index register (spec/42_index_memory.md), the key wait
and the timer writes (spec/44_input_timers.md). -/

namespace Sys2Proof.Machine

/-! ## Jump and return -/

/-- `V[0] + nnn` fits a word, so the jump of Bnnn never wraps (R109). -/
theorem indexedAddress_toNat (s : State) (nnn : Address) :
    (indexedAddress s nnn).toNat = (s.reg 0).toNat + nnn.toNat := by
  have hreg := (s.reg 0).isLt
  have hnnn := nnn.isLt
  rw [indexedAddress, BitVec.toNat_add, addressOf_toNat, BitVec.toNat_setWidth_of_le (by decide)]
  omega

/-- Settles O32: PC is the one field JP V0 sets, to the unmasked sum. -/
theorem jumpAddsV0 : Obligations.JumpAddsV0 := by
  unfold Obligations.JumpAddsV0
  exact fun nnn s => ⟨_, exec_jpV0 s nnn, indexedAddress_toNat s nnn, rfl, setPc_byteAt s _⟩

/-- Settles O33: the return pops the entry the call pushed, which no write of PC reaches. -/
theorem returnUndoesCall : Obligations.ReturnUndoesCall := by
  unfold Obligations.ReturnUndoesCall
  intro nnn w s t h
  obtain ⟨hroom, rfl⟩ := exec_call_next h
  exact ⟨_, exec_ret_of_pos (Nat.succ_pos _), Vector.getElem_set_self hroom, rfl⟩

/-! ## A flag and then a result (R120) -/

/-- A register once VF is written. -/
theorem reg_setReg_vf_toNat (s : State) (b : Byte) (x : Nibble) :
    ((s.setReg vf b).reg x).toNat = if x = 0xF then b.toNat else (s.reg x).toNat := by
  rw [reg_setReg, apply_ite BitVec.toNat]; rfl

/-- What 10_state.md and R120 ask of an operation with a flag, from `s` to outcome `o`: result `r` in Vx,
flag `c` in VF where that is another register, and nothing else changed. -/
def WritesFlagAndResult (s : State) (x : Nibble) (c r : Nat) (o : Host.Outcome State Fault Refusal) : Prop :=
  ∃ t, o = .next t ∧ (t.reg x).toNat = r ∧ (x ≠ 0xF → (t.reg 0xF).toNat = c) ∧
    (∀ z, z ≠ x → z ≠ 0xF → t.reg z = s.reg z) ∧ t = { s with v := t.v } ∧ ∀ a, t.byteAt a = s.byteAt a

/-- The flag is read in the old state, the result in the one with VF written. -/
theorem writes_flagThenResult {x : Nibble} {flag result : State → Byte} {s : State} {c r : Nat}
    (hflag : (flag s).toNat = c) (hresult : (result (s.setReg vf (flag s))).toNat = r) :
    WritesFlagAndResult s x c r (.next (flagThenResult x flag result s)) := by
  refine ⟨_, rfl, ?_, fun hx => ?_, fun z => reg_flagThenResult_of_ne flag result, rfl, fun _ => rfl⟩
  · rw [flagThenResult_eq, reg_setReg_self, hresult]
  · rw [flagThenResult_eq, reg_setReg_of_ne _ _ hx.symm, reg_setReg_vf_toNat, if_pos rfl, hflag]

/-! ## Sum and difference -/

theorem carryFlag_toNat (a b : Byte) : (carryFlag a b).toNat = if a.toNat + b.toNat > 255 then 1 else 0 :=
  apply_ite BitVec.toNat _ _ _

theorem noBorrowFlag_toNat (a b : Byte) : (noBorrowFlag a b).toNat = if a.toNat > b.toNat then 1 else 0 :=
  apply_ite BitVec.toNat _ _ _

theorem byte_toNat_sub (a b : Byte) : (a - b).toNat = (a.toNat + 256 - b.toNat) % 256 := by
  have hb := b.isLt
  rw [BitVec.toNat_sub]; omega

/-- Settles O37: the carry is of the old registers, the sum of those with VF written. -/
theorem addSetsCarryThenSum : Obligations.AddSetsCarryThenSum := by
  unfold Obligations.AddSetsCarryThenSum
  intro x y s c vx vy hc hvx hvy
  have hflag := (carryFlag_toNat (s.reg x) (s.reg y)).trans hc.symm
  rw [exec_addReg]
  refine writes_flagThenResult hflag ?_
  rw [BitVec.toNat_add, reg_setReg_vf_toNat, reg_setReg_vf_toNat, hflag, ← hvx, ← hvy]

/-- The difference of any two registers, minuend `a` and subtrahend `b`. -/
theorem writes_difference {x a b : Nibble} {s : State} {c va vb : Nat}
    (hc : c = if (s.reg a).toNat > (s.reg b).toNat then 1 else 0)
    (hva : va = if a = 0xF then c else (s.reg a).toNat) (hvb : vb = if b = 0xF then c else (s.reg b).toNat) :
    WritesFlagAndResult s x c ((va + 256 - vb) % 256) (.next (flagThenResult x
      (fun s => noBorrowFlag (s.reg a) (s.reg b)) (fun s => s.reg a - s.reg b) s)) := by
  have hflag := (noBorrowFlag_toNat (s.reg a) (s.reg b)).trans hc.symm
  refine writes_flagThenResult hflag ?_
  rw [byte_toNat_sub, reg_setReg_vf_toNat, reg_setReg_vf_toNat, hflag, ← hva, ← hvb]

/-- Settles O38: SUB takes Vy from Vx, SUBN Vx from Vy, and both write Vx. -/
theorem subtractSetsNoBorrowThenDifference : Obligations.SubtractSetsNoBorrowThenDifference := by
  unfold Obligations.SubtractSetsNoBorrowThenDifference
  intro x y s
  rw [exec_subReg, exec_subn]
  exact ⟨fun _ _ _ hc hvx hvy => writes_difference hc hvx hvy,
    fun _ _ _ hc hvx hvy => writes_difference hc hvy hvx⟩

/-! ## Shifts -/

theorem shiftSourceReg_eq (c : Config) (x y : Nibble) :
    shiftSourceReg c x y = if c.shiftSource = .vy then y else x := by
  unfold shiftSourceReg
  cases c.shiftSource <;> rfl

theorem shiftRightFlag_toNat (a : Byte) : (shiftRightFlag a).toNat = a.toNat % 2 := by
  rw [shiftRightFlag, BitVec.toNat_and]
  exact Nat.and_one_is_mod _

theorem shiftLeftFlag_toNat (a : Byte) : (shiftLeftFlag a).toNat = a.toNat / 128 := by
  have ha := a.isLt
  have hbit : (shiftLeftFlag a).toNat = a.toNat / 128 % 2 := by
    rw [shiftLeftFlag, BitVec.toNat_and, BitVec.toNat_ushiftRight, Nat.shiftRight_eq_div_pow]
    exact Nat.and_one_is_mod _
  omega

theorem byte_toNat_shiftRight_one (a : Byte) : (a >>> 1).toNat = a.toNat / 2 := by
  rw [BitVec.toNat_ushiftRight, Nat.shiftRight_eq_div_pow]

theorem byte_toNat_shiftLeft_one (a : Byte) : (a <<< 1).toNat = 2 * a.toNat % 256 := by
  rw [BitVec.toNat_shiftLeft, Nat.shiftLeft_eq, Nat.mul_comm]

/-- Settles O39: the bit shifted out is of the old source, the result of the source with VF written. -/
theorem shiftsSetTheBitOutThenTheResult : Obligations.ShiftsSetTheBitOutThenTheResult := by
  unfold Obligations.ShiftsSetTheBitOutThenTheResult
  intro x y src s hsrc
  rw [← shiftSourceReg_eq] at hsrc
  subst hsrc
  refine ⟨fun c v hc hv => ?shr, fun c v hc hv => ?shl⟩
  case shr =>
    have hflag := (shiftRightFlag_toNat (s.reg (shiftSourceReg s.cfg x y))).trans hc.symm
    rw [exec_shr]
    refine writes_flagThenResult hflag ?_
    rw [byte_toNat_shiftRight_one, setReg_cfg, reg_setReg_vf_toNat, hflag, ← hv]
  case shl =>
    have hflag := (shiftLeftFlag_toNat (s.reg (shiftSourceReg s.cfg x y))).trans hc.symm
    rw [exec_shl]
    refine writes_flagThenResult hflag ?_
    rw [byte_toNat_shiftLeft_one, setReg_cfg, reg_setReg_vf_toNat, hflag, ← hv]

/-! ## Random -/

/-- Settles O40: one write of Vx, of the latch and the mask bit by bit. -/
theorem randomIsMasked : Obligations.RandomIsMasked := by
  unfold Obligations.RandomIsMasked
  refine fun x kk s => ⟨_, exec_rnd s x kk, fun b => ?_, setReg_frame s x _⟩
  rw [reg_setReg_self, BitVec.getLsbD_and]

/-! ## Index register -/

/-- 5 times a byte fits a word (R152). -/
theorem glyphAddress_toNat (b : Byte) : (glyphAddress b).toNat = b.toNat * 5 := by
  have hb := b.isLt
  rw [glyphAddress, BitVec.toNat_ofNat]; omega

/-- Settles O42: I is the one field both set. -/
theorem indexArithmetic : Obligations.IndexArithmetic := by
  unfold Obligations.IndexArithmetic
  refine fun x s => ⟨⟨_, exec_addIVx s x, ?_, rfl, setI_byteAt s _⟩,
    ⟨_, exec_ldFVx s x, glyphAddress_toNat (s.reg x), rfl, setI_byteAt s _⟩⟩
  rw [setI_i, BitVec.toNat_add, BitVec.toNat_setWidth_of_le (by decide)]

/-! ## Key wait and timer writes -/

/-- Settles O54: `run` is the one field LD Vx, K sets. -/
theorem keyWaitStarts : Obligations.KeyWaitStarts := by
  unfold Obligations.KeyWaitStarts
  exact fun x s => ⟨_, exec_ldVxK s x, setRun_run s _, rfl, setRun_byteAt s _⟩

/-- Settles O56: each of the two sets its own timer and no other field. -/
theorem setsTheTimers : Obligations.SetsTheTimers := by
  unfold Obligations.SetsTheTimers
  exact fun x s => ⟨⟨_, exec_ldDtVx s x, setDt_dt s _, rfl, setDt_byteAt s _⟩,
    ⟨_, exec_ldStVx s x, setSt_st s _, rfl, setSt_byteAt s _⟩⟩

end Sys2Proof.Machine
end

section
/-! PROOFS. The reset state and booting a ROM (spec/70_reset_and_hazards.md), and the two invariants: they
hold there, every step keeps them, and canonical memories that read alike are equal. -/

namespace Sys2Proof.Machine

/-! ## The reset state (R44) -/

section
variable (c : Config)

@[simp] theorem zeroed_reg (x : Nibble) : (State.zeroed c).reg x = 0 := Vector.getElem_replicate x.isLt

theorem zeroed_stack (j : Fin 16) : (State.zeroed c).stack[j] = 0 := Vector.getElem_replicate j.isLt

theorem zeroed_key (k : Fin 16) : (State.zeroed c).key[k] = false := Vector.getElem_replicate k.isLt

@[simp] theorem zeroed_pixel (col : Fin 64) (row : Fin 32) : (State.zeroed c).pixel col row = false :=
  get_blank col row

theorem resetByte_of_lt {a : Nat} (h : a < 80) : resetByte c a = c.font[a] := dif_pos h

theorem resetByte_of_ge {a : Nat} (h : 80 ≤ a) : resetByte c a = 0 := dif_neg (Nat.not_lt_of_ge h)

end

/-- Settles O8: the zeroed state of the default configuration, whose memory lists no byte. -/
theorem resetStateIsZeroed : Obligations.ResetStateIsZeroed := by
  unfold Obligations.ResetStateIsZeroed
  exact ⟨rfl, rfl, zeroed_reg _, rfl, rfl, zeroed_stack _, rfl, rfl, rfl, rfl, zeroed_pixel _, zeroed_key _,
    rfl, rfl, fun _ => resetByte_of_lt _, fun _ => resetByte_of_ge _⟩

/-! ## Booting a ROM (R260 to R262) -/

/-- The state a ROM is started in: the zeroed one with the ROM copied in (R261). -/
def booted (cfg : Config) (rom : List Byte) : State :=
  { State.zeroed cfg with mem := copyBytes cfg [] 0x200 rom }

section
variable {cfg : Config} {rom : List Byte}

theorem boot_of_empty (h : rom.length = 0) : boot cfg rom = .error .emptyRom := if_pos h

theorem boot_of_too_large (h : 3584 < rom.length) : boot cfg rom = .error (.romTooLarge rom.length) := by
  rw [boot, if_neg (by omega), maxRomLength, if_pos h]; rfl

theorem boot_of_fits (hpos : 0 < rom.length) (hle : rom.length ≤ 3584) : boot cfg rom = .ok (booted cfg rom) := by
  rw [boot, if_neg (by omega), maxRomLength, if_neg (Nat.not_lt_of_ge hle)]; rfl

/-- A ROM that boots fits, and starts in its booted state. -/
theorem boot_eq_ok {s : State} (h : boot cfg rom = .ok s) : rom.length ≤ 3584 ∧ s = booted cfg rom := by
  by_cases hempty : rom.length = 0
  · rw [boot_of_empty hempty] at h; cases h
  · by_cases hlarge : 3584 < rom.length
    · rw [boot_of_too_large hlarge] at h; cases h
    · rw [boot_of_fits (by omega) (by omega)] at h
      exact ⟨by omega, (Except.ok.inj h).symm⟩

/-- Outside the ROM the booted memory reads as at reset. -/
theorem booted_byteAt_outside {a : Nat} (h : a < 0x200 ∨ 0x200 + rom.length ≤ a) :
    (booted cfg rom).byteAt a = resetByte cfg a := read_copyBytes_outside rom [] h

theorem booted_byteAt_inside {k : Nat} (hle : rom.length ≤ 3584) (h : k < rom.length) :
    (booted cfg rom).byteAt (0x200 + k) = rom[k] := read_copyBytes_inside rom h (by omega) rfl

end

/-- Settles O7: a ROM of a bad length is refused, and any other starts in its booted state, whose memory is
read inside and outside the ROM. -/
theorem bootBuildsTheResetState : Obligations.BootBuildsTheResetState := by
  unfold Obligations.BootBuildsTheResetState
  refine fun cfg rom => ⟨boot_of_empty, boot_of_too_large, fun hpos hle => ⟨_, boot_of_fits hpos hle, ?_⟩⟩
  refine ⟨rfl, rfl, rfl, zeroed_reg cfg, rfl, rfl, zeroed_stack cfg, rfl, rfl, rfl, rfl, zeroed_pixel cfg,
    zeroed_key cfg, rfl, fun a h => ?font, fun k => booted_byteAt_inside hle, fun a hge hout => ?zero⟩
  case font => rw [booted_byteAt_outside (by omega), resetByte_of_lt cfg h]
  case zero => rw [booted_byteAt_outside hout, resetByte_of_ge cfg hge]

/-! ## The invariants at the start -/

/-- Both invariants of a zeroed state that differs in its memory at most. -/
theorem invariants_of_zeroed {cfg : Config} {m : Memory} (hcfg : cfg.wf) (hm : Memory.wf cfg m = true) :
    Inv { State.zeroed cfg with mem := m } ∧ PcBound { State.zeroed cfg with mem := m } := by
  refine ⟨⟨hm, hcfg, hcfg, rfl⟩, ⟨show (0x200 : Nat) ≤ 0x10FE by decide, fun j => ?_⟩⟩
  have hzero : (State.zeroed cfg).stack[j].toNat ≤ 4096 := by rw [zeroed_stack]; exact Nat.zero_le _
  exact hzero

/-- Settles O22: the open period is a successor, so positive. -/
theorem resetMeetsTheInvariants : Obligations.ResetMeetsTheInvariants := by
  unfold Obligations.ResetMeetsTheInvariants
  exact invariants_of_zeroed (cfg := Config.standard) (Nat.succ_pos _) rfl

/-- Settles O23: the ROM is copied byte by byte into memory, which stays canonical. -/
theorem bootMeetsTheInvariants : Obligations.BootMeetsTheInvariants := by
  unfold Obligations.BootMeetsTheInvariants
  intro cfg rom s hcfg h
  obtain ⟨hle, rfl⟩ := boot_eq_ok h
  exact invariants_of_zeroed hcfg (wf_copyBytes rom (by omega) rfl)

/-! ## Every step keeps `Inv` -/

section
variable {s t : State}

theorem inv_poll (inp : TickInput) (h : Inv s) : Inv (poll inp s) := by
  rw [poll_eq]
  exact ⟨h.mem, h.cfg, h.acc, h.accEq⟩

theorem wf_bcdMem (hi : s.i.toNat < 4094) (b : Byte) (hm : Memory.wf s.cfg s.mem = true) :
    Memory.wf s.cfg (bcdMem s b) = true :=
  wf_write _ (wf_write _ (wf_write _ hm (show _ < 4096 by omega)) (show _ < 4096 by omega)) (show _ < 4096 by omega)

/-- Fx33 and Fx55 write inside memory, so it stays canonical; no other instruction writes it (R62). -/
theorem exec_keeps_wf_mem {i : Instr} (h : exec i s = .next t) (hm : Memory.wf s.cfg s.mem = true) :
    Memory.wf t.cfg t.mem = true := by
  cases hw : writesMem i with
  | false => rw [(exec_frame h).mem hw, (exec_frame h).rest]; exact hm
  | true =>
    cases i with
    | ldBVx x =>
      rcases Nat.lt_or_ge s.i.toNat 4094 with hi | hi
      · rw [exec_ldBVx_of_lt hi] at h; cases h; exact wf_bcdMem hi _ hm
      · rw [exec_ldBVx_of_ge hi] at h; cases h
    | ldMemVx x =>
      rcases Nat.lt_or_ge (s.i.toNat + x.toNat) 4096 with hi | hi
      · obtain ⟨u, hu, -, -, hwf⟩ := exec_ldMemVx_ok hi
        rw [hu] at h; cases h; exact (hwf hm).1
      · rw [exec_ldMemVx_fault hi] at h; cases h
    | _ => cases hw

theorem inv_exec {i : Instr} (h : exec i s = .next t) (hs : Inv s) : Inv t := by
  have hmem := exec_keeps_wf_mem h hs.mem
  have hrest := (exec_frame h).rest
  refine ⟨hmem, ?_, ?_, ?_⟩
  · rw [hrest]; exact hs.cfg
  · rw [hrest]; exact hs.acc
  · rw [hrest]; exact hs.accEq

theorem inv_executePhase (h : executePhase s = .next t) (hs : Inv s) : Inv t := by
  obtain rfl | ⟨op, i, -, -, hexec⟩ := executePhase_next_cases h
  · exact hs
  · exact inv_exec hexec ⟨hs.mem, hs.cfg, hs.acc, hs.accEq⟩

/-- Equal accumulators stay equal, since the timers' own values do not reach them (R234). -/
theorem inv_endTick (inp : TickInput) (h : Inv s) : Inv (endTick inp s) := by
  obtain ⟨-, haccDT, -, haccST, -⟩ := timerPhaseClosedForm s inp.elapsed h.cfg
  refine ⟨h.mem, h.cfg, ?_, ?_⟩
  · rw [endTick_accDT, endTick_cfg, haccDT]; exact Nat.mod_lt _ h.cfg
  · rw [endTick_accST, endTick_accDT, haccST, haccDT, h.accEq]

end

/-- Settles O20: each phase of a tick keeps the invariant. -/
theorem stepKeepsTheInvariant : Obligations.StepKeepsTheInvariant := by
  unfold Obligations.StepKeepsTheInvariant
  intro s t hs h
  obtain ⟨u, hu, rfl⟩ := step_next_endTick h
  exact inv_endTick _ (inv_executePhase hu (inv_poll _ hs))

/-! ## Every step keeps `PcBound` -/

section
variable {i : Instr} {s t : State}

theorem addressOf_lt (nnn : Address) : (addressOf nnn).toNat < 4096 := by
  rw [addressOf_toNat]; exact nnn.isLt

theorem skipIf_pc_le (c : Bool) (s : State) : (skipIf c s).pc.toNat ≤ s.pc.toNat + 2 := by
  rw [skipIf_pc_toNat]
  split <;> omega

theorem exec_skp_next {x : Nibble} (h : exec (.skp x) s = .next t) : ∃ c, t = skipIf c s := by
  rcases Nat.lt_or_ge (s.reg x).toNat 16 with hk | hk
  · rw [exec_skp_of_lt hk] at h; cases h; exact ⟨_, rfl⟩
  · rw [exec_skp_of_ge hk] at h; cases h

theorem exec_sknp_next {x : Nibble} (h : exec (.sknp x) s = .next t) : ∃ c, t = skipIf c s := by
  rcases Nat.lt_or_ge (s.reg x).toNat 16 with hk | hk
  · rw [exec_sknp_of_lt hk] at h; cases h; exact ⟨_, rfl⟩
  · rw [exec_sknp_of_ge hk] at h; cases h

/-- From a PC of at most 4096 the farthest an instruction goes is Bnnn's 0xFF + 0xFFF (R109). -/
theorem exec_pc_le (h : exec i s = .next t) (hpc : s.pc.toNat ≤ 4096)
    (hstack : ∀ j : Fin 16, s.stack[j].toNat ≤ 4096) : t.pc.toNat ≤ 0x10FE := by
  cases hw : writesPc i with
  | false => rw [(exec_frame h).pc hw]; omega
  | true =>
    cases i with
    | ret =>
      obtain ⟨hpos, rfl⟩ := exec_ret_next h
      exact (hstack ⟨s.sp.val - 1, by omega⟩).trans (by decide)
    | jp nnn => cases h; exact (addressOf_lt nnn).le.trans (by decide)
    | call nnn =>
      obtain ⟨_, rfl⟩ := exec_call_next h
      exact (addressOf_lt nnn).le.trans (by decide)
    | jpV0 nnn =>
      cases h
      have hreg := (s.reg 0).isLt
      have hnnn := nnn.isLt
      rw [setPc_pc, indexedAddress_toNat]; omega
    | seImm | sneImm | seReg | sneReg => cases h; exact (skipIf_pc_le _ s).trans (by omega)
    | skp x => obtain ⟨c, rfl⟩ := exec_skp_next h; exact (skipIf_pc_le c s).trans (by omega)
    | sknp x => obtain ⟨c, rfl⟩ := exec_sknp_next h; exact (skipIf_pc_le c s).trans (by omega)
    | _ => cases hw

/-- A call pushes the PC it was entered with, and no other instruction writes a stack entry (R30). -/
theorem exec_stack_le (h : exec i s = .next t) (hpc : s.pc.toNat ≤ 4096)
    (hstack : ∀ j : Fin 16, s.stack[j].toNat ≤ 4096) (j : Fin 16) : t.stack[j].toNat ≤ 4096 := by
  cases hu : usesStack i with
  | false => rw [(exec_keeps_stack h hu).1]; exact hstack j
  | true =>
    cases i with
    | ret => obtain ⟨_, rfl⟩ := exec_ret_next h; exact hstack j
    | call nnn =>
      obtain ⟨hroom, rfl⟩ := exec_call_next h
      show ((s.stack.set s.sp.val s.pc)[j.val]).toNat ≤ 4096
      rw [Vector.getElem_set]
      split
      · exact hpc
      · exact hstack j
    | _ => cases hu

theorem pcBound_poll (inp : TickInput) (h : PcBound s) : PcBound (poll inp s) := by
  rw [poll_eq]
  exact ⟨h.pc, h.stack⟩

/-- The fetch succeeds only where two bytes fit, so PC past the instruction is at most 4096 (R64). -/
theorem pcBound_executePhase (h : executePhase s = .next t) (hs : PcBound s) : PcBound t := by
  obtain rfl | ⟨op, i, hf, -, hexec⟩ := executePhase_next_cases h
  · exact hs
  · obtain ⟨hfits, -⟩ := fetch_eq_ok hf
    have hpc : s.advancePc.pc.toNat ≤ 4096 := by
      rw [advancePc_pc, BitVec.toNat_add]
      exact (Nat.mod_le _ _).trans (Nat.succ_le_of_lt hfits)
    exact ⟨exec_pc_le hexec hpc hs.stack, exec_stack_le hexec hpc hs.stack⟩

end

/-- Settles O21: poll and tick's end leave PC and the stack alone, and the execute phase keeps the bound. -/
theorem stepKeepsThePcBound : Obligations.StepKeepsThePcBound := by
  unfold Obligations.StepKeepsThePcBound
  intro s t hs h
  obtain ⟨u, hu, rfl⟩ := step_next_endTick h
  obtain ⟨hpc, hstack⟩ := pcBound_executePhase hu (pcBound_poll _ hs)
  exact ⟨hpc, hstack⟩

/-! ## Equal memories are equal data -/

/-- Canonical memory lists no address outside memory. -/
theorem read_of_ge {c : Config} {m : Memory} {lo a : Nat} (h : Memory.wfFrom c lo m = true) (ha : 4096 ≤ a) :
    Memory.read c m a = resetByte c a := by
  induction m generalizing lo with
  | nil => rfl
  | cons cell m ih =>
    obtain ⟨k, b⟩ := cell
    simp only [Memory.wfFrom, Bool.and_eq_true, decide_eq_true_eq] at h
    obtain ⟨⟨⟨-, hk⟩, -⟩, hm⟩ := h
    have hka : k < a := Nat.lt_of_lt_of_le hk ha
    rw [Memory.read, if_neg hka.ne', ih hm]

/-- Settles O25: outside memory both read as at reset, so they read alike everywhere. -/
theorem canonicalMemoriesAreEqual : Obligations.CanonicalMemoriesAreEqual := by
  unfold Obligations.CanonicalMemoriesAreEqual
  intro c m m' h h' hread
  refine wfFrom_ext h h' fun a => ?_
  rcases Nat.lt_or_ge a 4096 with ha | ha
  · exact hread a ha
  · rw [read_of_ge h ha, read_of_ge h' ha]

end Sys2Proof.Machine
end

section
/-! PROOFS. The memory transfers (spec/42_index_memory.md): Fx33, Fx55 and Fx65, one after the other, and
the fetch of stored bytes (spec/20_memory.md section 5). -/

namespace Sys2Proof.Machine

/-! ## Decimal digits (R153) -/

section
variable (b : Byte)

theorem bcdDigits_hundreds_toNat : (bcdDigits b).1.toNat = b.toNat / 100 := by
  have hb := b.isLt
  rw [bcdDigits, BitVec.toNat_ofNat]; omega

theorem bcdDigits_tens_toNat : (bcdDigits b).2.1.toNat = b.toNat / 10 % 10 := by
  rw [bcdDigits, BitVec.toNat_ofNat]; omega

theorem bcdDigits_ones_toNat : (bcdDigits b).2.2.toNat = b.toNat % 10 := by
  rw [bcdDigits, BitVec.toNat_ofNat]; omega

end

/-- The three bytes of Fx33 in memory, and every byte outside them. -/
theorem read_bcdMem {s : State} (b : Byte) (hi : s.i.toNat < 4094) (hm : Memory.wf s.cfg s.mem = true) :
    Memory.read s.cfg (bcdMem s b) s.i.toNat = (bcdDigits b).1 ∧
    Memory.read s.cfg (bcdMem s b) (s.i.toNat + 1) = (bcdDigits b).2.1 ∧
    Memory.read s.cfg (bcdMem s b) (s.i.toNat + 2) = (bcdDigits b).2.2 ∧
    ∀ a, a < s.i.toNat ∨ s.i.toNat + 2 < a → Memory.read s.cfg (bcdMem s b) a = s.byteAt a := by
  have hm1 := wf_write (a := s.i.toNat) (bcdDigits b).1 hm (show _ < 4096 by omega)
  have hm2 := wf_write (a := s.i.toNat + 1) (bcdDigits b).2.1 hm1 (show _ < 4096 by omega)
  refine ⟨?_, ?_, read_write_self _ _ hm2, fun a ha => ?_⟩
  · rw [bcdMem, read_write_of_ne _ _ (by omega), read_write_of_ne _ _ (by omega), read_write_self _ _ hm]
  · rw [bcdMem, read_write_of_ne _ _ (by omega), read_write_self _ _ hm1]
  · rw [bcdMem, read_write_of_ne _ _ (by omega), read_write_of_ne _ _ (by omega),
      read_write_of_ne _ _ (by omega), State.byteAt]

/-- Settles O43: three writes one after the other, none of which meets another's address. -/
theorem bcdStoresThreeDigits : Obligations.BcdStoresThreeDigits := by
  unfold Obligations.BcdStoresThreeDigits
  refine fun x s => ⟨fun hi hm => ⟨_, exec_ldBVx_of_lt hi, ?_⟩, exec_ldBVx_of_ge⟩
  obtain ⟨hhundreds, htens, hones, hout⟩ := read_bcdMem (s.reg x) hi hm
  exact ⟨(congrArg BitVec.toNat hhundreds).trans (bcdDigits_hundreds_toNat _),
    (congrArg BitVec.toNat htens).trans (bcdDigits_tens_toNat _),
    (congrArg BitVec.toNat hones).trans (bcdDigits_ones_toNat _), hout, rfl⟩

/-! ## Stores and loads of the registers (R154, R155) -/

/-- Settles O44: the store loop within memory and at its first byte outside. -/
theorem storesTheRegisters : Obligations.StoresTheRegisters := by
  unfold Obligations.StoresTheRegisters
  refine fun x s => ⟨fun hspan hm => ?_, exec_ldMemVx_fault⟩
  obtain ⟨t, ht, hframe, hout, hin⟩ := exec_ldMemVx_ok hspan
  exact ⟨t, ht, (hin hm).2, hout, hframe⟩

/-- Settles O45: the load loop within memory and at its first byte outside. -/
theorem loadsTheRegisters : Obligations.LoadsTheRegisters := by
  unfold Obligations.LoadsTheRegisters
  refine fun x s => ⟨fun hspan => ?_, exec_ldVxMem_fault⟩
  obtain ⟨t, ht, hframe, hreg⟩ := exec_ldVxMem_ok hspan
  refine ⟨t, ht, fun z hz => ?_, fun z hz => ?_, hframe, fun a => ?_⟩
  · rw [hreg, if_pos hz]; rfl
  · rw [hreg, if_neg (Nat.not_le_of_gt hz)]
  · rw [hframe]; rfl

/-- A store of the registers that goes on lay in memory, and left them there. -/
theorem exec_ldMemVx_next {x : Nibble} {s t : State} (h : exec (.ldMemVx x) s = .next t)
    (hm : Memory.wf s.cfg s.mem = true) : s.i.toNat + x.toNat < 4096 ∧ t.i = s.i ∧
      ∀ z : Nibble, z.toNat ≤ x.toNat → t.byteAt (s.i.toNat + z.toNat) = s.reg z := by
  rcases Nat.lt_or_ge (s.i.toNat + x.toNat) 4096 with hspan | hspan
  · obtain ⟨u, hu, hframe, -, hin⟩ := exec_ldMemVx_ok hspan
    rw [hu] at h; cases h
    exact ⟨hspan, by rw [hframe], (hin hm).2⟩
  · rw [exec_ldMemVx_fault hspan] at h; cases h

/-- Settles O46: the load reads the bytes the store left, whatever the registers hold in between. -/
theorem storeThenLoadRestores : Obligations.StoreThenLoadRestores := by
  unfold Obligations.StoreThenLoadRestores
  intro x s t w hm h
  obtain ⟨hspan, hi, hin⟩ := exec_ldMemVx_next h hm
  rw [← hi] at hspan hin
  obtain ⟨u, hu, -, hreg⟩ := exec_ldVxMem_ok (s := { t with v := w }) hspan
  refine ⟨u, hu, fun z hz => ?_⟩
  rw [hreg, if_pos hz]
  exact hin z hz

/-- Settles O47: the fetch reads two of the bytes the store left, the lower address on top. -/
theorem storedBytesAreFetched : Obligations.StoredBytesAreFetched := by
  unfold Obligations.StoredBytesAreFetched
  intro x k l s t hm h hl hlx hpc
  obtain ⟨hspan, -, hin⟩ := exec_ldMemVx_next h hm
  have hhigh : t.byteAt t.pc.toNat = s.reg k := by
    rw [hpc]; exact hin k (by omega)
  have hlow : t.byteAt (t.pc.toNat + 1) = s.reg l := by
    rw [hpc, ← hin l hlx, hl]; rfl
  have hfits : t.pc.toNat + 1 < 4096 := by
    rw [hpc, dataAddress]; omega
  exact ⟨_, fetch_ok hfits, by rw [joinBytes_toNat, hhigh, hlow]⟩

end Sys2Proof.Machine
end

section
/-! PROOFS. Sprite draws (spec/43_display.md): one draw, its fault, two equal draws, and a draw on a cleared
framebuffer. Each is derived from `exec_drw_ok` by what its sprite hits. -/

namespace Sys2Proof.Machine

/-! ## Hits and collisions -/

section
variable {s : State} {x0 y0 : Byte} {n : Nat}

/-- A hit written out: a set bit of the sprite, and the pixel it lands on modulo the screen (R173). -/
theorem spriteHits_iff {c : Fin 64} {r : Fin 32} : SpriteHits s x0 y0 0 n c r ↔
    ∃ row col, row < n ∧ col < 8 ∧ (s.byteAt (dataAddress s row)).toNat.testBit (7 - col) = true ∧
      c.val = (x0.toNat + col) % 64 ∧ r.val = (y0.toNat + row) % 32 := by
  simp only [SpriteHits, Nat.zero_le, true_and, Nat.zero_add, Fin.ext_iff, eq_comm (a := c.val),
    eq_comm (a := r.val)]
  rfl

/-- The bits of a sprite land on different pixels, so a hit on one's pixel is that bit being set. -/
theorem spriteHits_at_iff {row col : Nat} (hn : n ≤ 32) (hrow : row < n) (hcol : col < 8) :
    SpriteHits s x0 y0 0 n (spriteColumn x0 col) (spriteRow y0 row) ↔
      spriteBit (s.byteAt (dataAddress s row)) col = true := by
  constructor
  · rintro ⟨ρ, κ, -, hρ, hκ, hbit, hc, hr⟩
    obtain rfl := spriteColumn_inj x0 hκ hcol hc
    obtain rfl := spriteRow_inj y0 (by omega) (by omega) hr
    exact hbit
  · exact fun hbit => ⟨row, col, Nat.zero_le _, by omega, hcol, hbit, rfl, rfl⟩

theorem spriteCollides_iff : SpriteCollides s x0 y0 0 n ↔
    ∃ c r, SpriteHits s x0 y0 0 n c r ∧ s.pixel c r = true := by
  constructor
  · rintro ⟨row, col, hge, hrow, hcol, hbit, hset⟩
    exact ⟨_, _, ⟨row, col, hge, hrow, hcol, hbit, rfl, rfl⟩, hset⟩
  · rintro ⟨_, _, ⟨row, col, hge, hrow, hcol, hbit, rfl, rfl⟩, hset⟩
    exact ⟨row, col, hge, hrow, hcol, hbit, hset⟩

end

/-! ## One draw -/

/-- Settles O50: the draw loop at its first byte outside memory. -/
theorem drawFaultsOutsideMemory : Obligations.DrawFaultsOutsideMemory := by
  unfold Obligations.DrawFaultsOutsideMemory
  exact fun x y n s hpos _ hspan => exec_drw_fault hpos hspan

/-- Settles O49: the given bits and pixels are the draw's own, and each pixel is hit by one bit at most. -/
theorem drawFlipsTheSprite : Obligations.DrawFlipsTheSprite := by
  unfold Obligations.DrawFlipsTheSprite
  intro x y n s bit column line hn hspan hbit hcolumn hline
  replace hbit : ∀ row col, bit row col = spriteBit (s.byteAt (dataAddress s row)) col := hbit
  obtain rfl : column = spriteColumn (s.reg x) := funext fun col => Fin.ext (hcolumn col)
  obtain rfl : line = spriteRow (s.reg y) := funext fun row => Fin.ext (hline row)
  obtain ⟨t, ht, hframe, hregs, hflip, hkeep, hcoll, hmiss⟩ := exec_drw_ok (x := x) (y := y) (by omega) hspan
  refine ⟨t, ht, fun row col hrow hcol => ?flip, fun c r hno => ?keep, fun hex => ?coll, fun hno => ?miss, hregs,
    hframe, fun a => ?bytes⟩
  case flip =>
    have hhits := spriteHits_at_iff (s := s) (x0 := s.reg x) (y0 := s.reg y) (by omega) hrow hcol
    rw [← hbit] at hhits
    cases hset : bit row col with
    | true => rw [hflip _ _ (hhits.2 hset), Bool.bne_true]
    | false => rw [hkeep _ _ (by rw [hhits, hset]; exact Bool.false_ne_true), Bool.bne_false]
  case keep =>
    refine hkeep c r ?_
    rintro ⟨row, col, -, hrow, hcol, -, hc, hr⟩
    exact hno row col (by omega) hcol ⟨hc, hr⟩
  case coll =>
    obtain ⟨row, col, hrow, hcol, hset, hpixel⟩ := hex
    exact hcoll ⟨row, col, Nat.zero_le _, by omega, hcol, (hbit row col).symm.trans hset, hpixel⟩
  case miss =>
    refine hmiss ?_
    rintro ⟨row, col, -, hrow, hcol, hset, hpixel⟩
    exact hno ⟨row, col, by omega, hcol, (hbit row col).trans hset, hpixel⟩
  case bytes => rw [hframe]; rfl

/-! ## Two draws -/

section
variable {s t : State} {x y : Nibble} {n : Nat}

/-- A draw that goes on had its bytes in memory (R73). -/
theorem exec_drw_span (h : exec (.drw x y n) s = .next t) : n = 0 ∨ s.i.toNat + n ≤ 4096 := by
  by_contra hout
  rw [exec_drw_fault (by omega) (by omega)] at h
  cases h

/-- Everything a draw that goes on did: its frame, the pixels it hit and those it did not, and VF. -/
theorem exec_drw_next (hn : n ≤ 32) (h : exec (.drw x y n) s = .next t) :
    t = { s with v := t.v, fb := t.fb } ∧
      (∀ c r, SpriteHits s (s.reg x) (s.reg y) 0 n c r → t.pixel c r = !s.pixel c r) ∧
      (∀ c r, ¬ SpriteHits s (s.reg x) (s.reg y) 0 n c r → t.pixel c r = s.pixel c r) ∧
      (SpriteCollides s (s.reg x) (s.reg y) 0 n → t.reg 0xF = 1) ∧
      (¬ SpriteCollides s (s.reg x) (s.reg y) 0 n → t.reg 0xF = 0) := by
  obtain ⟨t', ht', hframe, -, hflip, hkeep, hcoll, hmiss⟩ := exec_drw_ok (x := x) (y := y) hn (exec_drw_span h)
  obtain rfl : t' = t := Host.Outcome.next.inj (ht'.symm.trans h)
  exact ⟨hframe, hflip, hkeep, hcoll, hmiss⟩

/-- A draw changes neither memory nor I, so a sprite at one origin hits the same pixels after it. -/
theorem spriteHits_of_frame (hframe : t = { s with v := t.v, fb := t.fb }) (x0 y0 : Byte) (c : Fin 64)
    (r : Fin 32) : SpriteHits t x0 y0 0 n c r ↔ SpriteHits s x0 y0 0 n c r := by
  rw [hframe]; exact Iff.rfl

end

/-- Settles O51: the second draw hits the same pixels, so it flips each one back; it collides where the
first one set a clear pixel. -/
theorem drawTwiceRestores : Obligations.DrawTwiceRestores := by
  unfold Obligations.DrawTwiceRestores
  intro x y x' y' n s t clear hn h hx hy hclear
  obtain ⟨hframe, hflip, hkeep, -, -⟩ := exec_drw_next (by omega) h
  have hi : t.i = s.i := by rw [hframe]
  have hspan := exec_drw_span h
  rw [← hi] at hspan
  obtain ⟨u, hu, -, -, hflip', hkeep', hcoll, hmiss⟩ := exec_drw_ok (x := x') (y := y') (by omega) hspan
  rw [hx, hy] at hflip' hkeep' hcoll hmiss
  have hhits := spriteHits_of_frame (n := n) hframe (s.reg x) (s.reg y)
  have hclear' : clear ↔ SpriteCollides t (s.reg x) (s.reg y) 0 n := by
    rw [hclear, spriteCollides_iff]
    constructor
    · rintro ⟨row, col, c, r, hrow, hcol, hset, hc, hr, hpixel⟩
      have hhit : SpriteHits s (s.reg x) (s.reg y) 0 n c r := spriteHits_iff.2 ⟨row, col, hrow, hcol, hset, hc, hr⟩
      exact ⟨c, r, (hhits c r).2 hhit, by rw [hflip c r hhit, hpixel]; rfl⟩
    · rintro ⟨c, r, hhit, hpixel⟩
      rw [hhits] at hhit
      rw [hflip c r hhit, Bool.not_eq_true'] at hpixel
      obtain ⟨row, col, hrow, hcol, hset, hc, hr⟩ := spriteHits_iff.1 hhit
      exact ⟨row, col, c, r, hrow, hcol, hset, hc, hr, hpixel⟩
  refine ⟨u, hu, fun c r => ?_, fun hc => hcoll (hclear'.1 hc), fun hc => hmiss (mt hclear'.2 hc)⟩
  by_cases hhit : SpriteHits s (s.reg x) (s.reg y) 0 n c r
  · rw [hflip' c r ((hhits c r).2 hhit), hflip c r hhit, Bool.not_not]
  · rw [hkeep' c r (mt (hhits c r).1 hhit), hkeep c r hhit]

/-- Settles O52: no pixel of a cleared framebuffer is set, so nothing collides and the hit pixels are the
set ones. -/
theorem drawAfterClearDoesNotCollide : Obligations.DrawAfterClearDoesNotCollide := by
  unfold Obligations.DrawAfterClearDoesNotCollide
  intro x y n s t u hn hcls h
  obtain rfl : s.clearFb = t := Host.Outcome.next.inj ((exec_cls s).symm.trans hcls)
  obtain ⟨-, hflip, hkeep, -, hmiss⟩ := exec_drw_next (by omega) h
  refine ⟨hmiss ?_, fun c r => Iff.trans ?_ spriteHits_iff⟩
  · rw [spriteCollides_iff]
    rintro ⟨c, r, -, hset⟩
    rw [clearFb_pixel] at hset
    cases hset
  · by_cases hhit : SpriteHits s.clearFb (s.reg x) (s.reg y) 0 n c r
    · simp only [hflip c r hhit, clearFb_pixel, Bool.not_false, true_iff]
      exact hhit
    · simp only [hkeep c r hhit, clearFb_pixel, Bool.false_eq_true, false_iff]
      exact hhit

end Sys2Proof.Machine
end

section
/-! PROOFS. Noninterference (spec/10_state.md sections 4 and 5): no instruction reads ST, none but 2nnn and
00EE reads a stack entry, and 00EE none at or above SP. Both are derived from `exec_mapStackSt`. -/

namespace Sys2Proof.Machine

/-- `s` with other stack entries and another ST: what an instruction outside 2nnn, 00EE and Fx18 neither
reads nor writes. -/
def State.mapStackSt (f : Vector Word 16 → Vector Word 16) (g : Byte → Byte) (s : State) : State :=
  { s with stack := f s.stack, st := g s.st }

theorem finish_map (o : Except Fault State) (F : State → State) : finish (o.map F) = afterNext (finish o) F := by
  cases o <;> rfl

/-- A change of state passes through a sequence whose rest it passes through. -/
theorem bind_map_comm {F : State → State} {o : Except Fault State} {k : State → Except Fault State}
    (hk : ∀ u, k (F u) = (k u).map F) : (o.map F >>= k) = (o >>= k).map F := by
  cases o with
  | ok u => exact hk u
  | error e => rfl

/-- A change of state passes through a read and what follows, if it passes through what follows. -/
theorem read_bind_map {α : Type} {F : State → State} {o : Except Fault α} {k k' : α → Except Fault State}
    (hk : ∀ b, k' b = (k b).map F) : (o >>= k') = (o >>= k).map F := by
  cases o with
  | ok b => exact hk b
  | error e => rfl

section
variable (f : Vector Word 16 → Vector Word 16) (g : Byte → Byte)

/-! ## The loops over memory -/

theorem writeByte_mapStackSt (s : State) (a : Nat) (b : Byte) :
    (s.mapStackSt f g).writeByte a b = (s.writeByte a b).map (State.mapStackSt f g) := by
  unfold State.writeByte
  split <;> rfl

theorem storeRegs_mapStackSt (n k : Nat) (s : State) :
    storeRegs n k (s.mapStackSt f g) = (storeRegs n k s).map (State.mapStackSt f g) := by
  induction n generalizing k s with
  | zero => rfl
  | succ n ih =>
    rw [storeRegs, writeByte_mapStackSt]
    exact bind_map_comm (ih (k + 1))

theorem loadRegs_mapStackSt (n k : Nat) (s : State) :
    loadRegs n k (s.mapStackSt f g) = (loadRegs n k s).map (State.mapStackSt f g) := by
  induction n generalizing k s with
  | zero => rfl
  | succ n ih =>
    rw [loadRegs, loadRegs]
    exact read_bind_map (o := s.readByte (s.i.toNat + k)) fun b => ih (k + 1) (s.setReg (BitVec.ofNat 4 k) b)

/-! ## The draw -/

theorem drawBit_mapStackSt (x0 y0 b : Byte) (row : Nat) (s : State) (col : Nat) :
    drawBit x0 y0 b row (s.mapStackSt f g) col = (drawBit x0 y0 b row s col).mapStackSt f g := by
  unfold drawBit
  split <;> rfl

theorem drawRow_mapStackSt (x0 y0 b : Byte) (row : Nat) (s : State) :
    drawRow x0 y0 b row (s.mapStackSt f g) = (drawRow x0 y0 b row s).mapStackSt f g :=
  List.foldl_hom (State.mapStackSt f g) (drawBit_mapStackSt f g x0 y0 b row)

theorem drawRows_mapStackSt (x0 y0 : Byte) (n row : Nat) (s : State) :
    drawRows x0 y0 n row (s.mapStackSt f g) = (drawRows x0 y0 n row s).map (State.mapStackSt f g) := by
  induction n generalizing row s with
  | zero => rfl
  | succ n ih =>
    rw [drawRows, drawRows]
    refine read_bind_map (o := s.readByte (dataAddress s row)) fun b => ?_
    rw [drawRow_mapStackSt]
    exact ih (row + 1) _

/-! ## Every instruction -/

/-- An instruction other than 2nnn, 00EE and Fx18 does the same whatever the stack entries and ST hold, and
leaves them there. -/
theorem exec_mapStackSt {i : Instr} (hstack : usesStack i = false) (hst : ∀ x, i ≠ .ldStVx x) (s : State) :
    exec i (s.mapStackSt f g) = afterNext (exec i s) (State.mapStackSt f g) := by
  cases i with
  | ret | call => cases hstack
  | ldStVx x => exact absurd rfl (hst x)
  | skp x | sknp x =>
    show finish _ = afterNext (finish _) _
    rw [← finish_map]
    exact congrArg finish (read_bind_map (o := readKey s (s.reg x)) fun _ => rfl)
  | ldBVx x =>
    rcases Nat.lt_or_ge s.i.toNat 4094 with h | h
    · rw [exec_ldBVx_of_lt h, exec_ldBVx_of_lt (s := s.mapStackSt f g) h]; rfl
    · rw [exec_ldBVx_of_ge h, exec_ldBVx_of_ge (s := s.mapStackSt f g) h]; rfl
  | ldMemVx x => exact (congrArg finish (storeRegs_mapStackSt f g _ _ s)).trans (finish_map _ _)
  | ldVxMem x => exact (congrArg finish (loadRegs_mapStackSt f g _ _ s)).trans (finish_map _ _)
  | drw x y n =>
    exact (congrArg finish (drawRows_mapStackSt f g _ _ n 0 (s.setReg vf 0))).trans (finish_map _ _)
  | _ => rfl -- always goes on (`Laws/Exec.lean`)

end

/-! ## The timers (R32) -/

/-- 2nnn and 00EE do not read ST either. -/
theorem exec_setSt_of_usesStack {i : Instr} (hu : usesStack i = true) (s : State) (b : Byte) :
    exec i (s.setSt b) = afterNext (exec i s) (fun t => t.setSt b) := by
  cases i with
  | ret =>
    rcases Nat.eq_zero_or_pos s.sp.val with h | h
    · rw [exec_ret_of_zero h, exec_ret_of_zero (s := s.setSt b) h]; rfl
    · rw [exec_ret_of_pos h, exec_ret_of_pos (s := s.setSt b) h]; rfl
  | call nnn =>
    by_cases h : s.sp.val < 16
    · rw [exec_call_of_lt nnn h, exec_call_of_lt (s := s.setSt b) nnn h]; rfl
    · have hfull : s.sp.val = 16 := by omega
      rw [exec_call_of_full nnn hfull, exec_call_of_full (s := s.setSt b) nnn hfull]; rfl
  | _ => cases hu

/-- Settles O59: the frame of the two timers, and the change of ST alone. -/
theorem timersAreSetByTheirInstructionsAlone : Obligations.TimersAreSetByTheirInstructionsAlone := by
  unfold Obligations.TimersAreSetByTheirInstructionsAlone
  refine fun i s => ⟨fun t h => (exec_frame h).dt, fun t h => (exec_frame h).st, fun b hst => ?_, fun b x => rfl⟩
  cases hu : usesStack i with
  | true => exact exec_setSt_of_usesStack hu s b
  | false => exact exec_mapStackSt id (fun _ => b) hu hst s

/-! ## The stack entries (R31) -/

section
variable {s : State} {w : Vector Word 16}

/-- An instruction other than 2nnn and 00EE does the same whatever the stack entries hold. -/
theorem exec_with_stack {i : Instr} (hu : usesStack i = false) (s : State) (w : Vector Word 16) :
    exec i { s with stack := w } = afterNext (exec i s) (fun t => { t with stack := w }) := by
  by_cases hst : ∃ x, i = .ldStVx x
  · obtain ⟨x, rfl⟩ := hst; rfl
  · exact exec_mapStackSt (fun _ => w) id hu (fun x hx => hst ⟨x, hx⟩) s

/-- What the stale entries must not reach, for one instruction: the same fault, or the same next state but
for the entries at or above its SP. -/
def AgreesBelowSp (i : Instr) (s : State) (w : Vector Word 16) : Prop :=
  (∀ t, exec i s = .next t → ∃ t', exec i { s with stack := w } = .next t' ∧
    t' = { t with stack := t'.stack } ∧ ∀ j : Fin 16, j.val < t.sp.val → t'.stack[j] = t.stack[j]) ∧
  (∀ f, exec i s = .fault f → exec i { s with stack := w } = .fault f)

/-- 00EE reads the entry just below SP (R102). -/
theorem ret_agreesBelowSp (hw : ∀ j : Fin 16, j.val < s.sp.val → w[j] = s.stack[j]) : AgreesBelowSp .ret s w := by
  rcases Nat.eq_zero_or_pos s.sp.val with hzero | hpos
  · have hfault := exec_ret_of_zero (s := { s with stack := w }) hzero
    rw [AgreesBelowSp, exec_ret_of_zero hzero, hfault]
    exact ⟨nofun, fun f => id⟩
  · have htop : w[s.sp.val - 1] = s.stack[s.sp.val - 1] :=
      hw ⟨s.sp.val - 1, by omega⟩ (Nat.sub_lt hpos Nat.one_pos)
    refine ⟨fun t h => ⟨_, exec_ret_of_pos (s := { s with stack := w }) hpos, ?_⟩, fun f h => ?_⟩
    · rw [exec_ret_of_pos hpos] at h
      cases h
      exact ⟨by rw [← htop], fun j hj => hw j (Nat.lt_of_lt_of_le hj (Nat.sub_le _ _))⟩
    · rw [exec_ret_of_pos hpos] at h; cases h

/-- 2nnn writes the entry at SP, which SP then rises above (R104). -/
theorem call_agreesBelowSp (nnn : Address) (hw : ∀ j : Fin 16, j.val < s.sp.val → w[j] = s.stack[j]) :
    AgreesBelowSp (.call nnn) s w := by
  by_cases hroom : s.sp.val < 16
  · refine ⟨fun t h => ⟨_, exec_call_of_lt (s := { s with stack := w }) nnn hroom, ?_⟩, fun f h => ?_⟩
    · rw [exec_call_of_lt nnn hroom] at h
      cases h
      refine ⟨rfl, fun j (hj : j.val < s.sp.val + 1) => ?_⟩
      show (w.set s.sp.val s.pc)[j.val] = (s.stack.set s.sp.val s.pc)[j.val]
      rw [Vector.getElem_set, Vector.getElem_set]
      split
      · rfl
      · exact hw j (by omega)
    · rw [exec_call_of_lt nnn hroom] at h; cases h
  · have hfull : s.sp.val = 16 := by omega
    have hfault := exec_call_of_full (s := { s with stack := w }) nnn hfull
    rw [AgreesBelowSp, exec_call_of_full nnn hfull, hfault]
    exact ⟨nofun, fun f => id⟩

theorem agreesBelowSp_of_not_usesStack {i : Instr} (hu : usesStack i = false)
    (hw : ∀ j : Fin 16, j.val < s.sp.val → w[j] = s.stack[j]) : AgreesBelowSp i s w := by
  refine ⟨fun t h => ⟨{ t with stack := w }, ?_, rfl, ?_⟩, fun f h => ?_⟩
  · rw [exec_with_stack hu, h, afterNext_next]
  · obtain ⟨hstack, hsp⟩ := exec_keeps_stack h hu
    rw [hstack, hsp]
    exact hw
  · rw [exec_with_stack hu, h, afterNext_fault]

end

/-- Settles O60: return, call, and the instructions that use no stack entry. -/
theorem staleStackEntriesAreUnobservable : Obligations.StaleStackEntriesAreUnobservable := by
  unfold Obligations.StaleStackEntriesAreUnobservable
  intro i s w hw
  cases i with
  | ret => exact ret_agreesBelowSp hw
  | call nnn => exact call_agreesBelowSp nnn hw
  | _ => exact agreesBelowSp_of_not_usesStack rfl hw

end Sys2Proof.Machine
end
